-- ==== Sys2Proof/Word.lean ====
section
/-! DEFINITION. The word types of the frame codec: bytes, 16-bit values, and the payload buffers' cells.
Every byte is unsigned, 0 to 255 (00_scope.md R7); the block has no signed quantity and no wider word (40_checksum.md R132). -/

namespace Sys2Proof

/-- One byte, BYTE_W = 8 bits (00_scope.md R6, R7). -/
abbrev Byte := BitVec 8

/-- A 16-bit value: a checksum accumulator (ACC_W = 16) or a CKS16 answer (00_scope.md R6). -/
abbrev Word16 := BitVec 16

/-- The sum of a byte sequence as a natural number, 0 for the empty sequence (`sum(s)`, 00_scope.md R9). -/
def byteSum : List Byte → Nat
  | [] => 0
  | b :: s => b.toNat + byteSum s

end Sys2Proof
end

