-- ==== Sys2Proof/Config.lean ====
section
/-! DEFINITION. What is fixed for the machine, what the spec leaves open as a parameter, and the vocabulary of
the agents (who moves, what HOST does), which the free values are stated in.

The constants are 00_scope.md R6. The three opaque constants have no body: nothing can be proved about their
values, so a claim that goes through one of them holds whatever it is. -/

namespace Sys2Proof

/-- The three spaces of opcode-table rows, "never compared with one another" (30_encoding.md R111): host
requests (format HOSTOP), transmitted frames (format CMD), received header pairs (ACKF, CDATA, SDATA, HDR2). -/
inductive Space
  | hostop
  | command
  | received
deriving DecidableEq, Repr

/-- Why a word is no instruction. -/
inductive DecodeError
  /-- Fewer bytes than the instruction's fixed part. -/
  | tooShort
  /-- An operation byte above 3: the operation select has two bits (R108). -/
  | unknownOp
  /-- Operand bytes after DEC, which has none (R169). -/
  | unexpectedOperand
  /-- A command frame that does not begin with 0x68 (R91). -/
  | notCommandHeader
  /-- A command frame whose payload is not LL - 1 bytes long (R91). -/
  | payloadLength
  /-- More than the two header bytes given for a received row (R101). -/
  | notAHeaderPair
deriving DecidableEq, Repr

/-- What HOST does on one of its turns (00_scope.md R11, R12). -/
inductive HostAct
  /-- Issue a HOSTOP request: the operation byte, then its operands (R108; log 1). -/
  | op (bytes : List Byte)
  /-- Issue a CMD row as a pseudo-operation: the frame's leading bytes and payload, without KS (R110; log 2). -/
  | frame (bytes : List Byte)
  /-- Wait for the completion of the request before it ("wait for TXDONE", "wait for RESP or ERR": R220, R221, R222). -/
  | await
  /-- Flush RXQ directly on the transport, which HOST does only while the block is quiescent (R69, R75). -/
  | flush
  /-- The settling wait of 200 ms (R225, R304, R315): nothing of the block happens. -/
  | settle
deriving DecidableEq, Repr, Inhabited

/-- Who moves next (00_scope.md R11), with ENV's choice where ENV moves. -/
inductive Move
  /-- HOST takes a turn. -/
  | host
  /-- TXU takes a turn: one byte of a command frame. -/
  | txu
  /-- RXU takes a turn: one byte of RXQ. -/
  | rxu
  /-- ENV appends a byte to RXQ (R36). -/
  | envByte (b : Byte)
  /-- ENV offers the timeout event (R183). -/
  | envTimeout
  /-- ENV takes one byte from the transmit stream (R11, R37). -/
  | envTake
  /-- ENV loses the k-th queued byte; only in the lossy setting of RXQ_MODEL (R72). -/
  | envDrop (k : Nat)
  /-- The block is reset (R300, R302). -/
  | reset
deriving DecidableEq, Repr, Inhabited

namespace Config

/-- HDR_CMD, first byte of a command frame (R6). -/
abbrev hdrCmd : Byte := 0x68

/-- HDR_CDATA, first byte of a command-response data frame (R6). -/
abbrev hdrCdata : Byte := 0x40

/-- HDR_SDATA0 and HDR_SDATA1, the header of a streaming data frame (R6). -/
abbrev hdrSdata0 : Byte := 0x42

/-- See `hdrSdata0`. -/
abbrev hdrSdata1 : Byte := 0x4D

/-- HDR_ACK, both header bytes of a positive acknowledge (R6). -/
abbrev hdrAck : Byte := 0xA5

/-- HDR_NAK, both header bytes of a negative acknowledge (R6). -/
abbrev hdrNak : Byte := 0x96

/-- SBODY_LEN, bytes of a streaming frame between header and checksum (R6). -/
abbrev sbodyLen : Nat := 28

/-- SDROP, leading body bytes of a streaming frame not delivered (R6). -/
abbrev sdrop : Nat := 2

/-- CDROP, leading payload bytes of a command-response data frame not delivered (R6). -/
abbrev cdrop : Nat := 1

/-- TX_PAYLOAD_MAX, the largest command payload (R6, D3). -/
abbrev txPayloadMax : Nat := 254

/-- RX_PAYLOAD_MAX, the capacity of the receive payload buffer (R6, D3). -/
abbrev rxPayloadMax : Nat := 254

/-- The number of bytes of either payload buffer (R24, R32, R60: index 0 to 253). -/
abbrev bufferSize : Nat := 254

/-- RXQ_MODEL (R6, R72, D20), OPEN: whether ENV may lose queued bytes. Both settings are allowed (log 12). -/
opaque rxqLossy : Bool

/-- The schedule where the agenda gives none: "any agent with an enabled step may take the next step" (R11).
It is also TIMEOUT_ORACLE (R6, D9) and ENV's choice of bytes there (log 4, log 13). -/
opaque freeMove : Nat → Move

/-- What HOST does on a turn where its program is empty (R11; log 5). -/
opaque freeHostAct : Nat → HostAct

end Config

end Sys2Proof
end

