-- ==== Sys2Proof/Syntax.lean ====
section
/-! DEFINITION. The instructions: one constructor for each of the 17 rows of spec/opcode_table.json
(00_scope.md R1, 30_encoding.md R90). -/

namespace Sys2Proof

/-- An instruction of the block: a host operation, a command frame, or a received frame kind. -/
inductive Instr
  /-- CKS8(s), the 8-bit sum-complement checksum (R130). -/
  | cks8 (s : List Byte)
  /-- CKS16(s), the 16-bit plain sum (R131). -/
  | cks16 (s : List Byte)
  /-- ENC(cmd, pay), send one command frame (R140). -/
  | enc (cmd : Byte) (pay : List Byte)
  /-- DEC, decode one received frame (R169). -/
  | dec
  /-- CMD, the generic command frame `68 LL CC payload` (R147). `ll` is the frame's length byte: it delimits the
  payload of the word; the unit itself computes the byte it pushes (R143). -/
  | cmd (ll cc : Byte) (pay : List Byte)
  /-- START_MEAS, `68 01 01` (R150). -/
  | startMeas
  /-- STOP_MEAS, `68 01 02` (R151). -/
  | stopMeas
  /-- READ_SAMPLE, `68 01 04` (R152). -/
  | readSample
  /-- SET_COEF(c), `68 02 08 c` (R153). -/
  | setCoef (c : Byte)
  /-- READ_COEF, `68 01 10` (R154). -/
  | readCoef
  /-- AUTOSEND_OFF, `68 01 20` (R155). -/
  | autosendOff
  /-- AUTOSEND_ON, `68 01 40` (R156). -/
  | autosendOn
  /-- ACK, header pair `A5 A5` (R173). -/
  | ack
  /-- NAK, header pair `96 96` (R174). -/
  | nak
  /-- CDATA, header pair `40 LL` (R175). -/
  | cdata (ll : Byte)
  /-- SDATA, header pair `42 4D` (R176). -/
  | sdata
  /-- MALFORMED, every other header pair (R177). -/
  | malformed (h0 h1 : Byte)
deriving DecidableEq, Repr

end Sys2Proof
end

