-- ==== Sys2Proof/WellFormed.lean ====
section
/-! DEFINITION. Which terms of `Instr` are instructions: each word has one term.
A generic CMD is well formed when its payload is the LL - 1 bytes its length byte says and its leading bytes
select no named row, which would win by priority (30_encoding.md R111).
A MALFORMED pair is well formed when it is none of the four legal patterns (R101, R105). -/

namespace Sys2Proof

/-- The leading bytes `68 LL CC` are those of one of the seven named rows (30_encoding.md R103). -/
def namedCommand (ll cc : Byte) : Bool :=
  (ll == 0x01 && (cc == 0x01 || cc == 0x02 || cc == 0x04 || cc == 0x10 || cc == 0x20 || cc == 0x40))
    || (ll == 0x02 && cc == 0x08)

/-- The header pair is one of the four legal patterns of 30_encoding.md R101. -/
def legalHeader (h0 h1 : Byte) : Bool :=
  (h0 == Config.hdrAck && h1 == Config.hdrAck) || (h0 == Config.hdrNak && h1 == Config.hdrNak)
    || h0 == Config.hdrCdata || (h0 == Config.hdrSdata0 && h1 == Config.hdrSdata1)

/-- The operands fit the row. A payload too long for ENC is no ill-formed request: it is refused (R149). -/
def Instr.wellFormed : Instr → Bool
  | .cks8 _ => true
  | .cks16 _ => true
  | .enc _ _ => true
  | .dec => true
  | .cmd ll cc pay => decide (pay.length = ll.toNat - 1) && !namedCommand ll cc
  | .startMeas => true
  | .stopMeas => true
  | .readSample => true
  | .setCoef _ => true
  | .readCoef => true
  | .autosendOff => true
  | .autosendOn => true
  | .ack => true
  | .nak => true
  | .cdata _ => true
  | .sdata => true
  | .malformed h0 h1 => !legalHeader h0 h1

end Sys2Proof
end

