-- ==== Sys2Proof/Decode.lean ====
section
/-! DEFINITION. Decoding and encoding (30_encoding.md R90 to R111).

There is one decoder for each space of rows, since rows of different formats are never compared (R111):
host requests, command frames, received header pairs. Each is total; what is no instruction is rejected by name.
A received pair always decodes: MALFORMED is the default row (R101).
After the decoders stand the encoder, and the opcode table itself as rows with R111's selection by priority. -/

namespace Sys2Proof

/-! ## Decoders -/

/-- A HOSTOP request: the operation select in its first byte (R108), then its operands (log 1). -/
def decodeHostop : List Byte → Except DecodeError Instr
  | [] => .error .tooShort
  | o :: args =>
    if o = 0 then .ok (.cks8 args)
    else if o = 1 then .ok (.cks16 args)
    else if o = 2 then
      match args with
      | [] => .error .tooShort
      | cmd :: pay => .ok (.enc cmd pay)
    else if o = 3 then
      match args with
      | [] => .ok .dec
      | _ :: _ => .error .unexpectedOperand
    else .error .unknownOp

/-- The row of a command frame by (LL, CC): a named row where one matches, else the generic CMD (R103, R111). -/
def commandRow (ll cc : Byte) (pay : List Byte) : Instr :=
  if ll = 0x01 then
    if cc = 0x01 then .startMeas
    else if cc = 0x02 then .stopMeas
    else if cc = 0x04 then .readSample
    else if cc = 0x10 then .readCoef
    else if cc = 0x20 then .autosendOff
    else if cc = 0x40 then .autosendOn
    else .cmd ll cc pay
  else if ll = 0x02 ∧ cc = 0x08 then
    match pay with
    | [] => .cmd ll cc pay
    | c :: _ => .setCoef c
  else .cmd ll cc pay

/-- A command frame without its checksum byte: header 0x68, LL, CC, and a payload of LL - 1 bytes, "possibly
none" (R91). LL = 0 selects row CMD too ("any LL", R147) and leaves no payload (log 3). -/
def decodeCommand : List Byte → Except DecodeError Instr
  | h :: ll :: cc :: pay =>
    if h ≠ Config.hdrCmd then .error .notCommandHeader
    else if pay.length ≠ ll.toNat - 1 then .error .payloadLength
    else .ok (commandRow ll cc pay)
  | _ => .error .tooShort

/-- The classification map of received header pairs (R101): total and single-valued. -/
def decodeHeader (h0 h1 : Byte) : Instr :=
  if h0 = Config.hdrAck ∧ h1 = Config.hdrAck then .ack
  else if h0 = Config.hdrNak ∧ h1 = Config.hdrNak then .nak
  else if h0 = Config.hdrCdata then .cdata h1
  else if h0 = Config.hdrSdata0 ∧ h1 = Config.hdrSdata1 then .sdata
  else .malformed h0 h1

/-- The decoder of a space of rows. -/
def decode : Space → List Byte → Except DecodeError Instr
  | .hostop, bytes => decodeHostop bytes
  | .command, bytes => decodeCommand bytes
  | .received, [h0, h1] => .ok (decodeHeader h0 h1)
  | .received, [] => .error .tooShort
  | .received, [_] => .error .tooShort
  | .received, _ :: _ :: _ :: _ => .error .notAHeaderPair

/-! ## Encoder -/

/-- The space an instruction's row belongs to (R90, R111). -/
def Instr.space : Instr → Space
  | .cks8 _ | .cks16 _ | .enc _ _ | .dec => .hostop
  | .cmd _ _ _ | .startMeas | .stopMeas | .readSample | .setCoef _ | .readCoef | .autosendOff | .autosendOn => .command
  | .ack | .nak | .cdata _ | .sdata | .malformed _ _ => .received

/-- The word of an instruction, from the tables of R91 to R94, R101, R103 and R108. -/
def encode : Instr → List Byte
  | .cks8 s => 0x00 :: s
  | .cks16 s => 0x01 :: s
  | .enc cmd pay => 0x02 :: cmd :: pay
  | .dec => [0x03]
  | .cmd ll cc pay => 0x68 :: ll :: cc :: pay
  | .startMeas => [0x68, 0x01, 0x01]
  | .stopMeas => [0x68, 0x01, 0x02]
  | .readSample => [0x68, 0x01, 0x04]
  | .setCoef c => [0x68, 0x02, 0x08, c]
  | .readCoef => [0x68, 0x01, 0x10]
  | .autosendOff => [0x68, 0x01, 0x20]
  | .autosendOn => [0x68, 0x01, 0x40]
  | .ack => [0xA5, 0xA5]
  | .nak => [0x96, 0x96]
  | .cdata ll => [0x40, ll]
  | .sdata => [0x42, 0x4D]
  | .malformed h0 h1 => [h0, h1]

/-- The mnemonic of an instruction's row, as spec/opcode_table.json spells it. -/
def Instr.mnemonic : Instr → String
  | .cks8 _ => "CKS8"
  | .cks16 _ => "CKS16"
  | .enc _ _ => "ENC"
  | .dec => "DEC"
  | .cmd _ _ _ => "CMD"
  | .startMeas => "START_MEAS"
  | .stopMeas => "STOP_MEAS"
  | .readSample => "READ_SAMPLE"
  | .setCoef _ => "SET_COEF"
  | .readCoef => "READ_COEF"
  | .autosendOff => "AUTOSEND_OFF"
  | .autosendOn => "AUTOSEND_ON"
  | .ack => "ACK"
  | .nak => "NAK"
  | .cdata _ => "CDATA"
  | .sdata => "SDATA"
  | .malformed _ _ => "MALFORMED"

/-! ## The opcode table, with R111's selection -/

/-- A row of spec/opcode_table.json; mask and pattern are written byte by byte, first byte most significant. -/
structure OpcodeRow where
  mnemonic : String
  space : Space
  mask : List Byte
  pattern : List Byte
  priority : Nat
deriving DecidableEq, Repr

/-- The 17 rows of spec/opcode_table.json. -/
def opcodeTable : List OpcodeRow :=
  [ ⟨"CKS8", .hostop, [0x03], [0x00], 1⟩,
    ⟨"CKS16", .hostop, [0x03], [0x01], 1⟩,
    ⟨"ENC", .hostop, [0x03], [0x02], 1⟩,
    ⟨"DEC", .hostop, [0x03], [0x03], 1⟩,
    ⟨"CMD", .command, [0xFF, 0x00, 0x00], [0x68, 0x00, 0x00], 1⟩,
    ⟨"START_MEAS", .command, [0xFF, 0xFF, 0xFF], [0x68, 0x01, 0x01], 2⟩,
    ⟨"STOP_MEAS", .command, [0xFF, 0xFF, 0xFF], [0x68, 0x01, 0x02], 2⟩,
    ⟨"READ_SAMPLE", .command, [0xFF, 0xFF, 0xFF], [0x68, 0x01, 0x04], 2⟩,
    ⟨"SET_COEF", .command, [0xFF, 0xFF, 0xFF], [0x68, 0x02, 0x08], 2⟩,
    ⟨"READ_COEF", .command, [0xFF, 0xFF, 0xFF], [0x68, 0x01, 0x10], 2⟩,
    ⟨"AUTOSEND_OFF", .command, [0xFF, 0xFF, 0xFF], [0x68, 0x01, 0x20], 2⟩,
    ⟨"AUTOSEND_ON", .command, [0xFF, 0xFF, 0xFF], [0x68, 0x01, 0x40], 2⟩,
    ⟨"ACK", .received, [0xFF, 0xFF], [0xA5, 0xA5], 1⟩,
    ⟨"NAK", .received, [0xFF, 0xFF], [0x96, 0x96], 1⟩,
    ⟨"CDATA", .received, [0xFF, 0x00], [0x40, 0x00], 1⟩,
    ⟨"SDATA", .received, [0xFF, 0xFF], [0x42, 0x4D], 1⟩,
    ⟨"MALFORMED", .received, [0x00, 0x00], [0x00, 0x00], 0⟩ ]

/-- `(leading bytes AND mask) = match`, byte by byte (R111); false when there are fewer bytes than the mask has. -/
def maskedMatch : List Byte → List Byte → List Byte → Bool
  | [], [], _ => true
  | m :: ms, p :: ps, b :: bs => (b &&& m == p) && maskedMatch ms ps bs
  | _, _, _ => false

/-- The matching row of highest priority; the earlier one on equal priority (no two rows of one priority match
the same bytes). -/
def bestRow (sp : Space) (bytes : List Byte) : List OpcodeRow → Option OpcodeRow
  | [] => none
  | r :: rs =>
    if r.space = sp ∧ maskedMatch r.mask r.pattern bytes then
      match bestRow sp bytes rs with
      | some q => if r.priority < q.priority then some q else some r
      | none => some r
    else bestRow sp bytes rs

/-- The mnemonic that the leading bytes of a frame or operation select (R111). -/
def selectRow (sp : Space) (bytes : List Byte) : Option String :=
  (bestRow sp bytes opcodeTable).map OpcodeRow.mnemonic

/-! ## Words as the table numbers them

R111: the leading bytes are one big-endian number, the first byte most significant. -/

/-- The HOSTOP request whose operation byte is `w` and whose operand bytes are 0: ENC has a command byte, the
others have none. -/
def hostopBytes (w : Nat) : List Byte :=
  if BitVec.ofNat 8 w = (2 : Byte) then [2, 0] else [BitVec.ofNat 8 w]

/-- The command frame whose three leading bytes are `w` and whose payload bytes are 0. -/
def commandBytes (w : Nat) : List Byte :=
  BitVec.ofNat 8 (w / 65536) :: BitVec.ofNat 8 (w / 256) :: BitVec.ofNat 8 w
    :: List.replicate ((BitVec.ofNat 8 (w / 256) : Byte).toNat - 1) 0

/-- The header pair whose two bytes are `w`. -/
def headerBytes (w : Nat) : Byte × Byte :=
  (BitVec.ofNat 8 (w / 256), BitVec.ofNat 8 w)

/-- What the decoder reads from an instruction of the table given as a number of `nbits` bits: 8 bits (the 2-bit
operation select in a whole byte) is a HOSTOP row, 16 bits a received pair, 24 bits a command frame. -/
def decodeTableWord (nbits w : Nat) : Option Instr :=
  match nbits with
  | 2 => (decodeHostop (hostopBytes w)).toOption
  | 8 => (decodeHostop (hostopBytes w)).toOption
  | 16 => some (decodeHeader (headerBytes w).1 (headerBytes w).2)
  | 24 => (decodeCommand (commandBytes w)).toOption
  | _ => none

end Sys2Proof
end

