-- ==== Sys2Proof/Machine/State.lean ====
section
/-! DEFINITION. The state of the frame codec and of what stands around it, as plain data.

TX and RX are the two units of 10_state.md R20; RXQ and TXS are the streams of R36 and R37; the trace is the
output trace of 00_scope.md R10. The last four fields of `State` are the model's own (log 4, 5, 9). -/

namespace Sys2Proof.Machine

/-- TX_ST, six values (10_state.md R22). -/
inductive TxSt
  | idle
  | hdr
  | len
  | cmd
  | pay
  | cks
deriving DecidableEq, Repr

/-- RX_ST, eight values (10_state.md R27). -/
inductive RxSt
  | idle
  | h0
  | h1
  | cpay
  | ccks
  | sbody
  | sckh
  | sckl
deriving DecidableEq, Repr

/-- A payload buffer, TXP or RXB of 20_memory.md R60: the cells that differ from `Memory.unlisted`, in rising
order of index. `Memory.wf` (Machine/Ops.lean) is the canonical form. -/
abbrev Memory := List Host.Cell

/-- What an unlisted index of a payload buffer reads as: its reset value (10_state.md R40). -/
def Memory.unlisted : Byte := 0

/-- The kinds of a result (00_scope.md R12, 60_exceptions.md R260). -/
inductive Kind
  | data
  | posack
  | negack
deriving DecidableEq, Repr

/-- The codes of an error result (60_exceptions.md R260). -/
inductive ErrCode
  /-- ChecksumMismatch (R261). -/
  | checksum
  /-- MalformedFrame (R262). -/
  | malformed
  /-- TransportTimeout (R263). -/
  | timeout
deriving DecidableEq, Repr

/-- The requests that can be refused (00_scope.md R12, 60_exceptions.md R266). -/
inductive ReqOp
  | enc
  | dec
deriving DecidableEq, Repr

/-- The events of the block to HOST (00_scope.md R12). -/
inductive Event
  /-- VAL8, the answer to CKS8. -/
  | val8 (b : Byte)
  /-- VAL16, the answer to CKS16. -/
  | val16 (w : Word16)
  /-- TXDONE, the command frame has been written in full. -/
  | txdone
  /-- RESP(kind, payload). -/
  | resp (kind : Kind) (payload : List Byte)
  /-- ERR(code). -/
  | err (code : ErrCode)
  /-- REFUSED(op). -/
  | refused (op : ReqOp)
deriving DecidableEq, Repr

/-- The registers of the transmit unit (10_state.md R20, R22 to R26). -/
structure TxUnit where
  /-- TX_ST. -/
  st : TxSt
  /-- TX_CMD. -/
  cmd : Byte
  /-- TX_PLEN, 0 to 254. -/
  plen : Byte
  /-- TX_PAY[0..253]. -/
  pay : Memory
  /-- TX_IDX. -/
  idx : Byte
  /-- TX_ACC. -/
  acc : Word16
deriving DecidableEq, Repr

/-- The registers of the receive unit (10_state.md R20, R27 to R32). -/
structure RxUnit where
  /-- RX_ST. -/
  st : RxSt
  /-- RX_H0. -/
  h0 : Byte
  /-- RX_REM. -/
  rem : Byte
  /-- RX_DROP, two bits. -/
  drop : BitVec 2
  /-- RX_ACC. -/
  acc : Word16
  /-- RX_CKH. -/
  ckh : Byte
  /-- RX_BUF[0..253]. -/
  buf : Memory
  /-- RX_LEN, 0 to 254. -/
  len : Byte
deriving DecidableEq, Repr

/-- The whole state. -/
structure State where
  /-- TXU. -/
  tx : TxUnit
  /-- RXU. -/
  rx : RxUnit
  /-- RXQ, oldest byte first (R36). -/
  rxq : List Byte
  /-- TXS, oldest byte first (R37). -/
  txs : List Byte
  /-- How many bytes of TXS ENV has taken (R11). -/
  txTaken : Nat
  /-- The output trace, oldest event first (R10). -/
  trace : List Event
  /-- How many RxFlush accesses the block has made; the model's own (log 9). -/
  flushes : Nat
  /-- What HOST will do on its turns, next act first; the model's own (log 5). -/
  hostq : List HostAct
  /-- Who moves next; the model's own (log 4). -/
  agenda : List Move
  /-- The argument of the next free value; the model's own (log 4). -/
  tick : Nat
deriving DecidableEq, Repr

/-- Why the machine stops with a fault. Each is raised only in register values that no run from reset reaches
(10_state.md R23, R25, R29, R32), and each is safe: the model stops where the spec gives no effect (log 10). -/
inductive Fault
  /-- Raised by step T_LEN when TX_PLEN = 255: the length byte TX_PLEN + 1 does not fit a byte (R23). Safe. -/
  | txLengthByte
  /-- Raised by step T_PAY when TX_IDX is not below TX_PLEN, or names no element of TX_PAY (R24, R25). Safe. -/
  | txPayloadIndex
  /-- Raised by steps R_CPAY and R_SBODY when RX_REM = 0 (R29). Safe. -/
  | rxCountZero
  /-- Raised by steps R_CPAY, R_SBODY when RX_BUF has no element RX_LEN, and by R_CCKS when RX_BUF has fewer than
  RX_LEN elements (R32). Safe. -/
  | rxBufferIndex
deriving DecidableEq, Repr

/-- Why an instruction or a request has no meaning. -/
inductive Refusal
  /-- An instruction whose arm in `exec` has no meaning yet; no arm raises it now. Safe. -/
  | notModelled (mnemonic : String)
  /-- Raised by HOST's turn when its next act is bytes that are no request (R108, R91; log 20). Safe. -/
  | badRequest (why : DecodeError)
  /-- Raised by the five received rows when they are run outside R_H1: each is "the rest of step R_H1" (R172 to
  R177; log 11). The step never does this. Safe. -/
  | notAtSecondHeaderByte
deriving DecidableEq, Repr

/-- TXU after reset (10_state.md R40, 70_reset_and_hazards.md R300). -/
def TxUnit.reset : TxUnit :=
  { st := .idle, cmd := 0, plen := 0, pay := [], idx := 0, acc := 0 }

/-- RXU after reset (10_state.md R40, 70_reset_and_hazards.md R300). -/
def RxUnit.reset : RxUnit :=
  { st := .idle, h0 := 0, rem := 0, drop := 0, acc := 0, ckh := 0, buf := [], len := 0 }

/-- The state after reset: both units as R40 says. RXQ and TXS are "unspecified after it" (R40, R301); the model
names them empty (log 7). The model's own fields are empty (log 4, 5, 9). -/
def State.reset : State :=
  { tx := TxUnit.reset, rx := RxUnit.reset, rxq := [], txs := [], txTaken := 0, trace := [], flushes := 0,
    hostq := [], agenda := [], tick := 0 }

end Sys2Proof.Machine
end

