-- ==== Sys2Proof/Machine/Ops.lean ====
section
/-! DEFINITION. The named operations over the payload buffers, the streams, the trace and the units' registers,
and the one operation by which a decode ends in an error (`State.raise`).

These are the pseudocode primitives of 00_scope.md R10. There is no return from an error: "There is no return
instruction and nothing to restore" (60_exceptions.md R270). -/

namespace Sys2Proof.Machine

/-! ## Payload buffers (20_memory.md R60) -/

/-- The byte at an index. -/
def Memory.read : Memory → Nat → Byte
  | [], _ => Memory.unlisted
  | (k, v) :: m, a => if k = a then v else Memory.read m a

/-- The buffer with the byte at an index replaced, in canonical form. -/
def Memory.write : Memory → Nat → Byte → Memory
  | [], a, b => if b = Memory.unlisted then [] else [(a, b)]
  | (k, v) :: m, a, b =>
    if a < k then (if b = Memory.unlisted then (k, v) :: m else (a, b) :: (k, v) :: m)
    else if a = k then (if b = Memory.unlisted then m else (a, b) :: m)
    else (k, v) :: Memory.write m a b

/-- The bytes `bs` written at the indexes from `a` on. -/
def Memory.writeFrom (m : Memory) (a : Nat) : List Byte → Memory
  | [] => m
  | b :: bs => Memory.writeFrom (Memory.write m a b) (a + 1) bs

/-- The `n` bytes at the indexes from `a` on. -/
def Memory.readFrom (m : Memory) (a : Nat) : Nat → List Byte
  | 0 => []
  | n + 1 => Memory.read m a :: Memory.readFrom m (a + 1) n

/-- Every index of the cells is at least `a`, the indexes rise strictly, and no cell holds the unlisted value. -/
def Memory.risingFrom : Memory → Nat → Bool
  | [], _ => true
  | (k, v) :: m, a => decide (a ≤ k) && decide (v ≠ Memory.unlisted) && Memory.risingFrom m (k + 1)

/-- Every cell is an element of a buffer of 254 bytes (R24, R32). -/
def Memory.within : Memory → Bool
  | [] => true
  | (k, _) :: m => decide (k < Config.bufferSize) && Memory.within m

/-- The canonical form of a payload buffer. -/
def Memory.wf (m : Memory) : Bool :=
  Memory.risingFrom m 0 && Memory.within m

/-! ## Events and streams -/

/-- `emit E` (R10): append an event to the output trace. -/
def State.emit (e : Event) (s : State) : State :=
  { s with trace := s.trace ++ [e] }

/-- `TxPush(b)` (R10, 20_memory.md R68): append a byte to TXS; it always succeeds (log 8). -/
def State.txPush (b : Byte) (s : State) : State :=
  { s with txs := s.txs ++ [b] }

/-- `RxFlush()` by the block (R10, 20_memory.md R69): RXQ is emptied, nothing else of the block changes. -/
def State.rxFlush (s : State) : State :=
  { s with rxq := [], flushes := s.flushes + 1 }

/-! ## Registers -/

/-- The accumulator after one more byte, modulo 65536 (10_state.md R26, R31). -/
def accAdd (acc : Word16) (b : Byte) : Word16 :=
  acc + b.setWidth 16

/-- Both units idle: the block is quiescent (00_scope.md R14). -/
def State.quiescent (s : State) : Bool :=
  decide (s.tx.st = .idle) && decide (s.rx.st = .idle)

/-- The transmit unit pushes a byte that the frame's checksum covers, and goes on at `next` (R142 to R145). -/
def State.sendCovered (b : Byte) (next : TxSt) (s : State) : State :=
  { s.txPush b with tx := { s.tx with acc := accAdd s.tx.acc b, st := next } }

/-- Acceptance of ENC(cmd, pay) (41_encode.md R141): the operands are latched, no byte is pushed. -/
def State.latchCommand (cmd : Byte) (pay : List Byte) (s : State) : State :=
  { s with tx := { st := .hdr, cmd := cmd, plen := BitVec.ofNat 8 pay.length,
                   pay := Memory.writeFrom s.tx.pay 0 pay, idx := 0, acc := 0 } }

/-- Acceptance of DEC (42_decode.md R170): no byte is popped. -/
def State.startDecode (s : State) : State :=
  { s with rx := { s.rx with st := .h0, len := 0, acc := 0, rem := 0, drop := 0 } }

/-- A request for a command frame: refused when a unit is busy or the payload is longer than 254 bytes
(41_encode.md R149), else accepted (R141). A refusal changes no register and moves no byte. -/
def State.requestFrame (cmd : Byte) (pay : List Byte) (s : State) : State :=
  if s.quiescent = true ∧ pay.length ≤ Config.txPayloadMax then s.latchCommand cmd pay
  else s.emit (.refused .enc)

/-- The receive unit goes idle with a result, in the step that reads the last checksum byte (R179, R182): the
payload is delivered and not retained (R188). -/
def State.deliverData (payload : List Byte) (s : State) : State :=
  { s.emit (.resp .data payload) with rx := { s.rx with len := 0, st := .idle } }

/-- The receive unit goes idle with an acknowledge (R173, R174). -/
def State.deliverAck (kind : Kind) (s : State) : State :=
  { s.emit (.resp kind []) with rx := { s.rx with st := .idle } }

/-- `raise X` (00_scope.md R10, 60_exceptions.md R269): emit ERR(X), RX_LEN to 0, RX_ST to R_IDLE; nothing is
saved, TXU and TXS are not touched, and the flush of MALFORMED is done before (R177; log 18). -/
def State.raise (code : ErrCode) (s : State) : State :=
  { s.emit (.err code) with rx := { s.rx with len := 0, st := .idle } }

/-- Reset of the block (70_reset_and_hazards.md R300, R302): both units to their reset values; no byte is pushed
or popped, RXQ is not flushed, nothing is emitted (log 15). -/
def State.resetBlock (s : State) : State :=
  { s with tx := TxUnit.reset, rx := RxUnit.reset }

end Sys2Proof.Machine
end

