-- ==== Sys2Proof/Machine/Operands.lean ====
section
/-! DEFINITION. The fields of the frames and the frame as a function of its operands.
Checksums are 40_checksum.md R130, R131; the frame function is 41_encode.md R147. -/

namespace Sys2Proof.Machine

/-- `checksum_mod256(s)`: (65536 - sum(s)) mod 256 with the floor modulus (R8, R130). -/
def cks8 (s : List Byte) : Byte :=
  BitVec.ofInt 8 ((65536 - (byteSum s : Int)) % 256)

/-- `checksum_sum16(s)`: sum(s) mod 65536 (R131). -/
def cks16 (s : List Byte) : Word16 :=
  BitVec.ofNat 16 (byteSum s % 65536)

/-- The accumulator form of a sum (R133): start from 0, add each byte modulo 65536. -/
def accumulate (acc : Word16) : List Byte → Word16
  | [] => acc
  | b :: s => accumulate (accAdd acc b) s

/-- The checksum byte that closes a command frame, from the accumulator: (0 - TX_ACC) mod 256 (R146). -/
def closingByte (acc : Word16) : Byte :=
  (0 - acc).setWidth 8

/-- The length byte of a command frame, LL = len(payload) + 1 (30_encoding.md R95). -/
def lengthByte (plen : Byte) : Byte :=
  plen + 1

/-- The bytes of a command frame before its checksum: header, LL, CC, payload (R91). -/
def framePre (cmd : Byte) (pay : List Byte) : List Byte :=
  Config.hdrCmd :: lengthByte (BitVec.ofNat 8 pay.length) :: cmd :: pay

/-- `frame(cmd, pay)` (R147). -/
def frame (cmd : Byte) (pay : List Byte) : List Byte :=
  framePre cmd pay ++ [cks8 (framePre cmd pay)]

/-- The received checksum of a streaming frame, big-endian (10_state.md R32, 20_memory.md R62). -/
def bigEndian (hi lo : Byte) : Word16 :=
  hi ++ lo

end Sys2Proof.Machine
end

