-- ==== Sys2Proof/Machine/Commands.lean ====
section
/-! DEFINITION. The meanings of the command-frame rows: "Each is ENC with fixed operands" (41_encode.md R150 to
R157), and the generic CMD is ENC with any (R147). The frame's bytes are pushed by TXU (Machine/Transmit.lean). -/

namespace Sys2Proof.Machine

/-- CMD (R147): ENC(cc, pay). The length byte of the word is not an operand: the unit pushes
TX_PLEN + 1 (R143), which is the same byte in every word ENC can emit (log 3). -/
def execCmd (_ll cc : Byte) (pay : List Byte) (s : State) : Host.Outcome State Fault Refusal :=
  .next (s.requestFrame cc pay)

/-- START_MEAS (R150): ENC(0x01, []). -/
def execStartMeas (s : State) : Host.Outcome State Fault Refusal :=
  .next (s.requestFrame 0x01 [])

/-- STOP_MEAS (R151): ENC(0x02, []). -/
def execStopMeas (s : State) : Host.Outcome State Fault Refusal :=
  .next (s.requestFrame 0x02 [])

/-- READ_SAMPLE (R152): ENC(0x04, []). -/
def execReadSample (s : State) : Host.Outcome State Fault Refusal :=
  .next (s.requestFrame 0x04 [])

/-- SET_COEF(c) (R153): ENC(0x08, [c]); "the block accepts every byte c". -/
def execSetCoef (c : Byte) (s : State) : Host.Outcome State Fault Refusal :=
  .next (s.requestFrame 0x08 [c])

/-- READ_COEF (R154): ENC(0x10, []). -/
def execReadCoef (s : State) : Host.Outcome State Fault Refusal :=
  .next (s.requestFrame 0x10 [])

/-- AUTOSEND_OFF (R155): ENC(0x20, []). -/
def execAutosendOff (s : State) : Host.Outcome State Fault Refusal :=
  .next (s.requestFrame 0x20 [])

/-- AUTOSEND_ON (R156): ENC(0x40, []). -/
def execAutosendOn (s : State) : Host.Outcome State Fault Refusal :=
  .next (s.requestFrame 0x40 [])

end Sys2Proof.Machine
end

