-- ==== Sys2Proof/Machine/Received.lean ====
section
/-! DEFINITION. The meanings of the five received frame kinds: each is "the rest of step R_H1" (42_decode.md R172
to R177), run by RXU's turn on the pair (RX_H0, second byte) after that byte is popped.
Outside R_H1 there is no such step ("No other transition exists", R185), and the meaning refuses (log 11). -/

namespace Sys2Proof.Machine

/-- The rest of step R_H1, in R_H1 only. -/
def atSecondHeaderByte (s : State) (t : State) : Host.Outcome State Fault Refusal :=
  if s.rx.st = .h1 then .next t else .refused .notAtSecondHeaderByte

/-- ACK (R173): RESP(POSACK, []). -/
def execAck (s : State) : Host.Outcome State Fault Refusal :=
  atSecondHeaderByte s (s.deliverAck .posack)

/-- NAK (R174): RESP(NEGACK, []), a normal result. -/
def execNak (s : State) : Host.Outcome State Fault Refusal :=
  atSecondHeaderByte s (s.deliverAck .negack)

/-- CDATA (R175): the payload of LL bytes begins, or the checksum byte when LL = 0 (30_encoding.md R107). -/
def execCdata (ll : Byte) (s : State) : Host.Outcome State Fault Refusal :=
  atSecondHeaderByte s
    { s with rx := { s.rx with acc := accAdd (Config.hdrCdata.setWidth 16) ll, rem := ll,
                               drop := BitVec.ofNat 2 Config.cdrop,
                               st := if ll = 0 then .ccks else .cpay } }

/-- SDATA (R176): the body of 28 bytes begins. -/
def execSdata (s : State) : Host.Outcome State Fault Refusal :=
  atSecondHeaderByte s
    { s with rx := { s.rx with acc := accAdd (Config.hdrSdata0.setWidth 16) Config.hdrSdata1,
                               rem := BitVec.ofNat 8 Config.sbodyLen,
                               drop := BitVec.ofNat 2 Config.sdrop,
                               st := .sbody } }

/-- MALFORMED (R177): RxFlush, then ERR(MALFORMED), in one step. -/
def execMalformed (_h0 _h1 : Byte) (s : State) : Host.Outcome State Fault Refusal :=
  atSecondHeaderByte s (s.rxFlush.raise .malformed)

end Sys2Proof.Machine
end

