-- ==== Sys2Proof/Machine/Requests.lean ====
section
/-! DEFINITION. The meanings of the four host operations (30_encoding.md R108).
Each is one HOST step: ENC and DEC are accepted or refused here, and TXU and RXU do the rest. -/

namespace Sys2Proof.Machine

/-- CKS8(s) (40_checksum.md R130): answer VAL8; no register, no byte, never refused. -/
def execCks8 (bytes : List Byte) (s : State) : Host.Outcome State Fault Refusal :=
  .next (s.emit (.val8 (cks8 bytes)))

/-- CKS16(s) (40_checksum.md R131): answer VAL16; no register, no byte, never refused. -/
def execCks16 (bytes : List Byte) (s : State) : Host.Outcome State Fault Refusal :=
  .next (s.emit (.val16 (cks16 bytes)))

/-- ENC(cmd, pay) (41_encode.md R140, R141, R149). -/
def execEnc (cmd : Byte) (pay : List Byte) (s : State) : Host.Outcome State Fault Refusal :=
  .next (s.requestFrame cmd pay)

/-- DEC (42_decode.md R169, R170): accepted when both units are idle, else refused. -/
def execDec (s : State) : Host.Outcome State Fault Refusal :=
  if s.quiescent then .next s.startDecode else .next (s.emit (.refused .dec))

end Sys2Proof.Machine
end

