-- ==== Sys2Proof/Machine/Dispatch.lean ====
section
/-! DEFINITION. One arm for each row of spec/opcode_table.json, each a direct call of the row's meaning. -/

namespace Sys2Proof.Machine

/-- The meaning of an instruction. -/
def exec (i : Instr) (s : State) : Host.Outcome State Fault Refusal :=
  match i with
  | .cks8 bytes => Sys2Proof.Machine.execCks8 bytes s
  | .cks16 bytes => Sys2Proof.Machine.execCks16 bytes s
  | .enc c pay => Sys2Proof.Machine.execEnc c pay s
  | .dec => Sys2Proof.Machine.execDec s
  | .cmd ll cc pay => Sys2Proof.Machine.execCmd ll cc pay s
  | .startMeas => Sys2Proof.Machine.execStartMeas s
  | .stopMeas => Sys2Proof.Machine.execStopMeas s
  | .readSample => Sys2Proof.Machine.execReadSample s
  | .setCoef c => Sys2Proof.Machine.execSetCoef c s
  | .readCoef => Sys2Proof.Machine.execReadCoef s
  | .autosendOff => Sys2Proof.Machine.execAutosendOff s
  | .autosendOn => Sys2Proof.Machine.execAutosendOn s
  | .ack => Sys2Proof.Machine.execAck s
  | .nak => Sys2Proof.Machine.execNak s
  | .cdata ll => Sys2Proof.Machine.execCdata ll s
  | .sdata => Sys2Proof.Machine.execSdata s
  | .malformed a b => Sys2Proof.Machine.execMalformed a b s

end Sys2Proof.Machine
end

