-- ==== Sys2Proof/Machine/Flags.lean ====
section
/-! DEFINITION. The conditions the decoder evaluates, and the numeric labels of states and results.

"The block has no flag or condition-code register" (10_state.md R34): each condition is evaluated in the step that
reads the deciding byte and is not stored. The header condition is the decoder's (`decodeHeader`). The numeric
codes are labels the spec chose (R22, R27, R109, R260); no rule reads them. -/

namespace Sys2Proof.Machine

/-- The checksum of a command-response data frame holds: (RX_ACC + b) mod 256 = 0 (42_decode.md R179). -/
def sumCloses (acc : Word16) (b : Byte) : Bool :=
  decide ((acc.toNat + b.toNat) % 256 = 0)

/-- The checksum of a streaming data frame holds: RX_CKH * 256 + b = RX_ACC (42_decode.md R182). -/
def sumEquals (acc : Word16) (hi lo : Byte) : Bool :=
  decide (bigEndian hi lo = acc)

/-- The code of a transmit state (10_state.md R22). -/
def TxSt.code : TxSt → BitVec 3
  | .idle => 0
  | .hdr => 1
  | .len => 2
  | .cmd => 3
  | .pay => 4
  | .cks => 5

/-- The code of a receive state (10_state.md R27). -/
def RxSt.code : RxSt → BitVec 3
  | .idle => 0
  | .h0 => 1
  | .h1 => 2
  | .cpay => 3
  | .ccks => 4
  | .sbody => 5
  | .sckh => 6
  | .sckl => 7

/-- The result code of an event (60_exceptions.md R260); the answers of CKS8, CKS16 and ENC have none. -/
def Event.code : Event → Option (BitVec 3)
  | .val8 _ => none
  | .val16 _ => none
  | .txdone => none
  | .resp .data _ => some 0
  | .resp .posack _ => some 1
  | .resp .negack _ => some 2
  | .err .checksum => some 4
  | .err .malformed => some 5
  | .err .timeout => some 6
  | .refused _ => some 7

end Sys2Proof.Machine
end

