-- ==== Sys2Proof/Machine/Receive.lean ====
section
/-! DEFINITION. The byte-level steps of the receive unit RXU that are no rows of the opcode table (42_decode.md
R171, R178 to R183). Each takes the byte popped and the state after the pop; the pop, and step R_H1, which runs a
received row, stand in Machine/Turns.lean. -/

namespace Sys2Proof.Machine

/-- Step R_H0 (R171): the first header byte is held, and nothing is classified on it. -/
def stepRH0 (b : Byte) (s : State) : Host.Outcome State Fault Refusal :=
  .next { s with rx := { s.rx with h0 := b, st := .h1 } }

/-- A payload or body byte (R178, R180): summed; dropped while RX_DROP > 0, else stored; `after` is the state that
follows the last one. -/
def takeBodyByte (b : Byte) (after : RxSt) (s : State) : Host.Outcome State Fault Refusal :=
  if s.rx.rem = 0 then .fault .rxCountZero
  else
    let rx := { s.rx with acc := accAdd s.rx.acc b, rem := s.rx.rem - 1,
                          st := if s.rx.rem = 1 then after else s.rx.st }
    if s.rx.drop ≠ 0 then .next { s with rx := { rx with drop := s.rx.drop - 1 } }
    else if s.rx.len.toNat < Config.rxPayloadMax then
      .next { s with rx := { rx with buf := Memory.write s.rx.buf s.rx.len.toNat b, len := s.rx.len + 1 } }
    else .fault .rxBufferIndex

/-- Step R_CPAY (R178). -/
def stepRCpay (b : Byte) (s : State) : Host.Outcome State Fault Refusal :=
  takeBodyByte b .ccks s

/-- Step R_CCKS (R179): RX_BUF[0..RX_LEN) is delivered when the checksum closes the sum; no flush otherwise. -/
def stepRCcks (b : Byte) (s : State) : Host.Outcome State Fault Refusal :=
  if sumCloses s.rx.acc b then
    if s.rx.len.toNat ≤ Config.rxPayloadMax then
      .next (s.deliverData (Memory.readFrom s.rx.buf 0 s.rx.len.toNat))
    else .fault .rxBufferIndex
  else .next (s.raise .checksum)

/-- Step R_SBODY (R180). -/
def stepRSbody (b : Byte) (s : State) : Host.Outcome State Fault Refusal :=
  takeBodyByte b .sckh s

/-- Step R_SCKH (R181): the byte is held and not summed. -/
def stepRSckh (b : Byte) (s : State) : Host.Outcome State Fault Refusal :=
  .next { s with rx := { s.rx with ckh := b, st := .sckl } }

/-- Step R_SCKL (R182): RX_BUF[0..26) is delivered when the received checksum equals the sum; no flush otherwise. -/
def stepRSckl (b : Byte) (s : State) : Host.Outcome State Fault Refusal :=
  if sumEquals s.rx.acc s.rx.ckh b then
    .next (s.deliverData (Memory.readFrom s.rx.buf 0 (Config.sbodyLen - Config.sdrop)))
  else .next (s.raise .checksum)

/-- Step TIMEOUT (R183), when ENV offers the event (log 13): taken only by a decode in progress that finds RXQ empty. -/
def timeoutTurn (s : State) : Host.Outcome State Fault Refusal :=
  if s.rx.st ≠ .idle ∧ s.rxq = [] then .next (s.raise .timeout) else .next s

end Sys2Proof.Machine
end

