-- ==== Sys2Proof/Machine/Transmit.lean ====
section
/-! DEFINITION. The byte-level steps of the transmit unit TXU (41_encode.md R142 to R146, R158).
A TXU step is enabled whenever TX_ST is not T_IDLE; on T_IDLE a turn of TXU changes nothing. -/

namespace Sys2Proof.Machine

/-- Step T_HDR (R142). -/
def stepTHdr (s : State) : Host.Outcome State Fault Refusal :=
  .next (s.sendCovered Config.hdrCmd .len)

/-- Step T_LEN (R143): the pushed value is TX_PLEN + 1, "between 1 and 255". -/
def stepTLen (s : State) : Host.Outcome State Fault Refusal :=
  if s.tx.plen = 255 then .fault .txLengthByte
  else .next (s.sendCovered (lengthByte s.tx.plen) .cmd)

/-- Step T_CMD (R144). -/
def stepTCmd (s : State) : Host.Outcome State Fault Refusal :=
  .next (s.sendCovered s.tx.cmd (if s.tx.plen = 0 then .cks else .pay))

/-- Step T_PAY (R145). -/
def stepTPay (s : State) : Host.Outcome State Fault Refusal :=
  if s.tx.idx.toNat < s.tx.plen.toNat ∧ s.tx.idx.toNat < Config.bufferSize then
    let t := s.sendCovered (Memory.read s.tx.pay s.tx.idx.toNat) (if s.tx.idx + 1 = s.tx.plen then .cks else .pay)
    .next { t with tx := { t.tx with idx := s.tx.idx + 1 } }
  else .fault .txPayloadIndex

/-- Step T_CKS (R146). -/
def stepTCks (s : State) : Host.Outcome State Fault Refusal :=
  .next { (s.txPush (closingByte s.tx.acc)).emit .txdone with tx := { s.tx with st := .idle } }

/-- A turn of TXU. -/
def txuTurn (s : State) : Host.Outcome State Fault Refusal :=
  match s.tx.st with
  | .idle => .next s
  | .hdr => stepTHdr s
  | .len => stepTLen s
  | .cmd => stepTCmd s
  | .pay => stepTPay s
  | .cks => stepTCks s

end Sys2Proof.Machine
end

