-- ==== Sys2Proof/Machine/Turns.lean ====
section
/-! DEFINITION. One turn of each agent (00_scope.md R11). An agent that has no enabled step passes its turn: nothing
changes (42_decode.md R184; log 6). -/

namespace Sys2Proof.Machine

/-- A decoded request runs; bytes that are no request are refused by name (log 20). -/
def runRequest (i : Except DecodeError Instr) (s : State) : Host.Outcome State Fault Refusal :=
  match i with
  | .ok i => exec i s
  | .error e => .refused (.badRequest e)

/-- HOST performs one act; `waiting` is the state in which the act is still to be done. A wait or a flush asked
for while the block is not quiescent is not done yet (20_memory.md R75, 43_session_host.md R222; log 14).
DESIGN CHOICE (log 22, log 24): a wait is for both units idle, not for an event, so it is passed also where no TXDONE, RESP
or ERR comes: when a reset has cut the operation (log 22), and when the request was REFUSED (log 24). -/
def hostAct (a : HostAct) (s waiting : State) : Host.Outcome State Fault Refusal :=
  match a with
  | .op bytes => runRequest (decode .hostop bytes) s
  | .frame bytes => runRequest (decode .command bytes) s
  | .await => if s.quiescent then .next s else .next waiting
  | .flush => if s.quiescent then .next { s with rxq := [] } else .next waiting
  | .settle => .next s

/-- What HOST does next, and the state past it: the front of its program, or a free act where the program is empty
(log 5). -/
def nextAct (s : State) : HostAct × State :=
  match s.hostq with
  | a :: rest => (a, { s with hostq := rest })
  | [] => (Config.freeHostAct s.tick, { s with tick := s.tick + 1 })

/-- A turn of HOST: its next act. An act that waits stays at the front of its program. -/
def hostTurn (s : State) : Host.Outcome State Fault Refusal :=
  hostAct (nextAct s).1 (nextAct s).2 { (nextAct s).2 with hostq := s.hostq }

/-- Step R_H1 (42_decode.md R172): the pair (RX_H0, b) selects a received row, which runs. -/
def stepRH1 (b : Byte) (s : State) : Host.Outcome State Fault Refusal :=
  exec (decodeHeader s.rx.h0 b) s

/-- RXU with a byte just popped. In R_IDLE it pops nothing (R170), so there the queue is as it was. -/
def rxuByte (b : Byte) (s : State) : Host.Outcome State Fault Refusal :=
  match s.rx.st with
  | .idle => .next { s with rxq := b :: s.rxq }
  | .h0 => stepRH0 b s
  | .h1 => stepRH1 b s
  | .cpay => stepRCpay b s
  | .ccks => stepRCcks b s
  | .sbody => stepRSbody b s
  | .sckh => stepRSckh b s
  | .sckl => stepRSckl b s

/-- A turn of RXU: one byte of RXQ, or nothing where RXQ is empty (R184) or RXU is idle (R170). -/
def rxuTurn (s : State) : Host.Outcome State Fault Refusal :=
  match s.rxq with
  | [] => .next s
  | b :: q => rxuByte b { s with rxq := q }

/-- A turn of whoever the schedule names. ENV loses a byte only in the lossy setting of RXQ_MODEL (20_memory.md
R72; log 12), and takes a byte only when there is one it has not taken. -/
def takeTurn (m : Move) (s : State) : Host.Outcome State Fault Refusal :=
  match m with
  | .host => hostTurn s
  | .txu => txuTurn s
  | .rxu => rxuTurn s
  | .envByte b => .next { s with rxq := s.rxq ++ [b] }
  | .envTimeout => timeoutTurn s
  | .envTake => .next (if s.txTaken < s.txs.length then { s with txTaken := s.txTaken + 1 } else s)
  | .envDrop k => .next (if Config.rxqLossy then { s with rxq := s.rxq.eraseIdx k } else s)
  | .reset => .next s.resetBlock

/-- Who moves next, and the state with that choice made: the front of the agenda, or a free value where the
agenda is empty (00_scope.md R11; log 4). -/
def schedule (s : State) : Move × State :=
  match s.agenda with
  | m :: rest => (m, { s with agenda := rest })
  | [] => (Config.freeMove s.tick, { s with tick := s.tick + 1 })

/-- Where a fetched word stands so that the next step runs it: a host request at the front of HOST's program, with
HOST to move. -/
def placeRequest (a : HostAct) (s : State) : State :=
  { s with hostq := a :: s.hostq, agenda := .host :: s.agenda }

/-- Where a received pair stands so that the next step runs it: its first byte in RX_H0 with RXU in R_H1, its
second at the front of RXQ, and RXU to move (log 16). -/
def placePair (h0 h1 : Byte) (s : State) : State :=
  { s with rx := { s.rx with st := .h1, h0 := h0 }, rxq := h1 :: s.rxq, agenda := .rxu :: s.agenda }

/-- A word of the opcode table, placed by its width as `decodeTableWord` reads it. A width that no row has is
placed as an empty request, which the next step refuses. -/
def placeTableWord (nbits w : Nat) (s : State) : State :=
  match nbits with
  | 2 => placeRequest (.op (hostopBytes w)) s
  | 8 => placeRequest (.op (hostopBytes w)) s
  | 16 => placePair (headerBytes w).1 (headerBytes w).2 s
  | 24 => placeRequest (.frame (commandBytes w)) s
  | _ => placeRequest (.op []) s

end Sys2Proof.Machine
end

