-- ==== Sys2Proof/Machine/Step.lean ====
section
/-! DEFINITION. One step of the machine: the agent that the schedule names takes its turn (00_scope.md R11). -/

namespace Sys2Proof.Machine

/-- One step. -/
def step (s : State) : Host.Outcome State Fault Refusal :=
  takeTurn (schedule s).1 (schedule s).2

/-- `s` with an instruction of the opcode table placed where the next step fetches it (log 16, log 17). -/
def State.withFetchWord (s : State) (nbits w : Nat) : State :=
  placeTableWord nbits w s

end Sys2Proof.Machine
end

