-- ==== Sys2Proof/Machine/HostLayer.lean ====
section
/-! DEFINITION. The host software around the block, as far as the spec gives it: scripts of host acts (43_session_host.md
R220, R221, R225, R233) and the pure decisions of the driver, the sample decoders and the streaming loop (R226 to
R234, 60_exceptions.md R264, R265, R272).

These are environment rules: "they bind a model of the host, not the block" (43_session_host.md). No step of the
machine calls this file; a script is what a user of the model puts into `State.hostq` (log 19). Where the spec gives
the host no transition (93_implementation_defined.md U7, U28) the function answers `none`. -/

namespace Sys2Proof.Machine

/-! ## Scripts -/

/-- The host act that issues ENC(cmd, pay) (30_encoding.md R108). -/
def issueEnc (cmd : Byte) (pay : List Byte) : HostAct :=
  .op (0x02 :: cmd :: pay)

/-- The host act that issues DEC. -/
def issueDec : HostAct :=
  .op [0x03]

/-- SEND(cmd, pay): ENC, wait for TXDONE (R220). DESIGN CHOICE (log 24): no TXDONE comes of an ENC that is REFUSED (a payload
longer than 254 bytes, a busy unit); the wait is then passed once both units are idle. -/
def sendScript (cmd : Byte) (pay : List Byte) : List HostAct :=
  [issueEnc cmd pay, .await]

/-- XCHG(cmd, pay): ENC, wait for TXDONE, DEC, wait for RESP or ERR (R221). DESIGN CHOICE (log 24): where the ENC is REFUSED the
first wait is passed once both units are idle and the DEC is issued; where the DEC is REFUSED the second is passed so. -/
def xchgScript (cmd : Byte) (pay : List Byte) : List HostAct :=
  [issueEnc cmd pay, .await, issueDec, .await]

/-- The initialisation protocol (R225, 70_reset_and_hazards.md R303). -/
def initScript : List HostAct :=
  sendScript 0x20 [] ++ sendScript 0x02 [] ++ [.settle, .flush]

/-- The clean stop of the streaming loop (R233): exactly one disable command. -/
def cleanStopScript : List HostAct :=
  sendScript 0x20 [] ++ [.settle, .flush]

/-! ## Sample decoding (R228 to R231) -/

/-- A payload as consecutive big-endian 16-bit fields (20_memory.md R63); none when its length is odd. -/
def fields16 : List Byte → Option (List Word16)
  | [] => some []
  | [_] => none
  | hi :: lo :: rest => (fields16 rest).map (bigEndian hi lo :: ·)

/-- A sample of the Compact variant (R228). -/
structure CompactSample where
  pm1 : Word16
  pm25 : Word16
  pm4 : Word16
  pm10 : Word16
deriving DecidableEq, Repr

/-- A sample of the Standard variant (R229, R230). -/
structure StandardSample where
  pm25 : Word16
  pm10 : Word16
deriving DecidableEq, Repr

/-- `decode_compact`: the first four of six fields (R228). -/
def decodeCompact (payload : List Byte) : Option CompactSample :=
  match fields16 payload with
  | some [a, b, c, d, _, _] => some { pm1 := a, pm25 := b, pm4 := c, pm10 := d }
  | _ => none

/-- `decode_standard_short`: two fields (R229). -/
def decodeStandardShort (payload : List Byte) : Option StandardSample :=
  match fields16 payload with
  | some [a, b] => some { pm25 := a, pm10 := b }
  | _ => none

/-- `decode_standard_long`: fields 1 and 2 of thirteen (R230). -/
def decodeStandardLong (payload : List Byte) : Option StandardSample :=
  match fields16 payload with
  | some [_, a, b, _, _, _, _, _, _, _, _, _, _] => some { pm25 := a, pm10 := b }
  | _ => none

/-- The two sensor variants, chosen when the driver is constructed (R231). -/
inductive Variant
  | compact
  | standard
deriving DecidableEq, Repr

/-- A sample of either variant. -/
inductive Sample
  | compact (c : CompactSample)
  | standard (d : StandardSample)
deriving DecidableEq, Repr

/-- The decode path of a payload by variant and context (R231); the Compact variant has no streaming decode (U7). -/
def decodeSample (v : Variant) (streaming : Bool) (payload : List Byte) : Option Sample :=
  match v, streaming with
  | .compact, false => (decodeCompact payload).map .compact
  | .compact, true => none
  | .standard, false => (decodeStandardShort payload).map .standard
  | .standard, true => (decodeStandardLong payload).map .standard

/-! ## Driver operations (R224, R226, R227) -/

/-- The driver's recorded state: the host's belief, no register of the block (R224). -/
inductive DriverState
  | stopped
  | measuring
  | streaming
deriving DecidableEq, Repr

/-- The driver's operations (R226). -/
inductive DriverOp
  | startMeasurement
  | stopMeasurement
  | sample
  | setCoefficient (c : Nat)
  | readCoefficient
  | startAutosample
deriving DecidableEq, Repr

/-- What the driver's caller gets from the XCHG's event. -/
inductive DriverAnswer
  /-- The operation succeeded and returns nothing. -/
  | done
  /-- The payload of the sample, for the variant's decoder. -/
  | samplePayload (payload : List Byte)
  /-- The coefficient, "interpreted as unsigned integer". -/
  | coefficient (c : Nat)
  /-- CommandFailure: RESP(NEGACK) (60_exceptions.md R264). -/
  | commandFailure
  /-- InvalidArgument: a coefficient outside 30 to 200, before any wire traffic (60_exceptions.md R265). -/
  | invalidArgument
  /-- A decode error, passed on unchanged (60_exceptions.md R272). -/
  | decodeError (code : ErrCode)
deriving DecidableEq, Repr

/-- The script of an operation: one XCHG, or InvalidArgument and no request (R226, R227). -/
def driverScript : DriverOp → Except DriverAnswer (List HostAct)
  | .startMeasurement => .ok (xchgScript 0x01 [])
  | .stopMeasurement => .ok (xchgScript 0x02 [])
  | .sample => .ok (xchgScript 0x04 [])
  | .setCoefficient c =>
    if 30 ≤ c ∧ c ≤ 200 then .ok (xchgScript 0x08 [BitVec.ofNat 8 c]) else .error .invalidArgument
  | .readCoefficient => .ok (xchgScript 0x10 [])
  | .startAutosample => .ok (xchgScript 0x40 [])

/-- What an operation makes of the event its XCHG ends in (R226); none for a result of an unexpected kind (U28).
DESIGN CHOICE (log 21): `readCoefficient` answers none also for a DATA payload that is not exactly one byte. R63 and R226
say what the single byte means, and nothing of another length. -/
def driverAnswer (op : DriverOp) (e : Event) : Option DriverAnswer :=
  match e with
  | .err code => some (.decodeError code)
  | .resp .negack _ => some .commandFailure
  | .resp .posack _ =>
    match op with
    | .startMeasurement | .stopMeasurement | .setCoefficient _ | .startAutosample => some .done
    | .sample | .readCoefficient => none
  | .resp .data payload =>
    match op with
    | .sample => some (.samplePayload payload)
    | .readCoefficient =>
      match payload with
      | [c] => some (.coefficient c.toNat)
      | _ => none
    | .startMeasurement | .stopMeasurement | .setCoefficient _ | .startAutosample => none
  | .val8 _ | .val16 _ | .txdone | .refused _ => none

/-- The driver's recorded state after an operation that succeeded (R226). -/
def driverStateAfter (op : DriverOp) (d : DriverState) : DriverState :=
  match op with
  | .startMeasurement => .measuring
  | .stopMeasurement => .stopped
  | .startAutosample => .streaming
  | .sample | .setCoefficient _ | .readCoefficient => d

/-! ## The streaming loop (R232 to R235) -/

/-- What the streaming loop does after a DEC's event. -/
inductive LoopAct
  /-- Issue the next DEC. -/
  | again
  /-- Run `cleanStopScript` and return with state Stopped (R233). -/
  | cleanStop
  /-- End with the error and send nothing (R234). -/
  | errorStop (code : ErrCode)
deriving DecidableEq, Repr

/-- The loop's decision for a driver of variant `v`: each data frame's payload is decoded as a streaming sample and
handed to the consumer. A positive acknowledge inside the loop has no transition (U28).
DESIGN CHOICE (log 23): a data frame whose payload yields no sample (not 13 fields, or the Compact variant, U7) has none
either: the consumer is not called, and R232 gives the loop no other way on. -/
def loopDecision (v : Variant) (consumer : Sample → Bool) (e : Event) : Option LoopAct :=
  match e with
  | .resp .data payload =>
    (decodeSample v true payload).map fun x => if consumer x then .again else .cleanStop
  | .resp .negack _ => some .cleanStop
  | .err code => some (.errorStop code)
  | .resp .posack _ | .val8 _ | .val16 _ | .txdone | .refused _ => none

end Sys2Proof.Machine
end

