-- ==== Sys2Proof/Safety.lean ====
section
/-! DEFINITION. What a good state of the codec is, and what a safe outcome is.

`Inv` gathers the facts the spec states of every state a run reaches: half duplex (20_memory.md R74), the ranges
and exactness of the counters and accumulators (10_state.md R23, R25, R26, R29, R30, R31, R32), the canonical form of the
two payload buffers, and that ENV takes only bytes that were pushed. -/

namespace Sys2Proof.Safety

open Sys2Proof.Machine

/-- The bytes of the current command frame that TXU has pushed, as its registers say (10_state.md R22, R26). -/
def sentSoFar (tx : TxUnit) : List Byte :=
  match tx.st with
  | .idle => []
  | .hdr => []
  | .len => [Config.hdrCmd]
  | .cmd => [Config.hdrCmd, lengthByte tx.plen]
  | .pay => Config.hdrCmd :: lengthByte tx.plen :: tx.cmd :: Memory.readFrom tx.pay 0 tx.idx.toNat
  | .cks => Config.hdrCmd :: lengthByte tx.plen :: tx.cmd :: Memory.readFrom tx.pay 0 tx.idx.toNat

/-- The transmit unit's registers are as R23, R25 and R26 say of every run. -/
structure TxInv (tx : TxUnit) : Prop where
  /-- TX_PAY is in canonical form. -/
  pay : Memory.wf tx.pay = true
  /-- TX_PLEN is at most TX_PAYLOAD_MAX (R23). -/
  plen : tx.plen.toNat ≤ Config.txPayloadMax
  /-- TX_IDX is 0 before the payload. -/
  start : tx.st = .hdr ∨ tx.st = .len ∨ tx.st = .cmd → tx.idx = 0
  /-- TX_IDX is below TX_PLEN in T_PAY (R25). -/
  idx : tx.st = .pay → tx.idx.toNat < tx.plen.toNat
  /-- TX_IDX is TX_PLEN in T_CKS. -/
  done : tx.st = .cks → tx.idx = tx.plen
  /-- TX_ACC is the exact sum of the bytes pushed (R26). -/
  acc : tx.st ≠ .idle → tx.acc.toNat = byteSum (sentSoFar tx)

/-- The receive unit's registers are as R29, R30 and R32 say of every run. -/
structure RxInv (rx : RxUnit) : Prop where
  /-- RX_BUF is in canonical form. -/
  buf : Memory.wf rx.buf = true
  /-- RX_DROP is 0, 1 or 2 (R30). -/
  drop : rx.drop.toNat ≤ Config.sdrop
  /-- Nothing is held while no frame is being read, and before its payload begins (R32, R188). -/
  empty : rx.st = .idle ∨ rx.st = .h0 ∨ rx.st = .h1 → rx.len = 0
  /-- In R_CPAY bytes remain (R29), what is held and what remains fit the buffer, and RX_ACC cannot wrap (R31). -/
  cpay : rx.st = .cpay → 1 ≤ rx.rem.toNat
    ∧ (rx.drop = 1 ∧ rx.len = 0 ∨ rx.drop = 0 ∧ rx.len.toNat + rx.rem.toNat ≤ Config.rxPayloadMax)
    ∧ rx.acc.toNat + 255 * rx.rem.toNat ≤ 65344
  /-- In R_CCKS nothing remains (R29), RX_LEN is at most 254 (R32), and RX_ACC has not wrapped (R31). -/
  ccks : rx.st = .ccks → rx.rem = 0 ∧ rx.len.toNat ≤ Config.rxPayloadMax ∧ rx.acc.toNat ≤ 65344
  /-- In R_SBODY bytes remain (R29), each of the 28 body bytes is to come, stored or dropped, and RX_ACC cannot wrap (R31). -/
  sbody : rx.st = .sbody → 1 ≤ rx.rem.toNat
    ∧ (rx.drop ≠ 0 ∧ rx.len = 0 ∧ rx.rem.toNat = 26 + rx.drop.toNat ∨ rx.drop = 0 ∧ rx.len.toNat + rx.rem.toNat = 26)
    ∧ rx.acc.toNat + 255 * rx.rem.toNat ≤ 7283
  /-- At the checksum bytes of a streaming frame the 26 delivered bytes are held (R32) and RX_ACC has not wrapped (R31). -/
  scks : rx.st = .sckh ∨ rx.st = .sckl → rx.rem = 0 ∧ rx.drop = 0 ∧ rx.len = 26 ∧ rx.acc.toNat ≤ 7283

/-- What every run keeps. -/
structure Inv (s : State) : Prop where
  /-- A decode never overlaps a transmission (R74). -/
  halfDuplex : s.tx.st = .idle ∨ s.rx.st = .idle
  /-- TXU's registers are in range and its sum is exact. -/
  tx : TxInv s.tx
  /-- RXU's registers are in range. -/
  rx : RxInv s.rx
  /-- ENV has taken only bytes that were pushed (R37). -/
  taken : s.txTaken ≤ s.txs.length

/-- No fault: a next state, or a refusal of bytes that are no request. -/
def SafeOutcome : Host.Outcome State Fault Refusal → Prop
  | .next _ => True
  | .refused (.badRequest _) => True
  | .refused _ => False
  | .fault _ => False

/-- `n` steps from `s` end in `t`, with no fault and no refusal on the way. -/
def Reaches (n : Nat) (s t : State) : Prop :=
  Host.Core.run Sys2Proof.core n s = .next t

/-- A move that is neither HOST's nor a reset: what may be interleaved with a command frame (00_scope.md R11). -/
def notHostNorReset : Move → Bool
  | .host => false
  | .reset => false
  | .txu => true
  | .rxu => true
  | .envByte _ => true
  | .envTimeout => true
  | .envTake => true
  | .envDrop _ => true

/-- The instruction `i` is ENC(cc, pay) and puts `bytes` on the wire: its word is the frame without the checksum; it is
accepted by a quiescent block and refused by a busy one (41_encode.md R149), and the len(pay) + 4 turns of TXU that
follow its acceptance push exactly `bytes` and end in TXDONE (41_encode.md R150 to R156). -/
def EmitsFrame (i : Instr) (cc : Byte) (pay bytes : List Byte) : Prop :=
  encode i = bytes.dropLast ∧ decode .command bytes.dropLast = .ok i ∧
  ∀ s : State,
    (s.quiescent = true →
      exec i s = .next { s with tx := { st := .hdr, cmd := cc, plen := BitVec.ofNat 8 pay.length,
                                        pay := Memory.writeFrom s.tx.pay 0 pay, idx := 0, acc := 0 } }) ∧
    (s.quiescent = false → exec i s = .next { s with trace := s.trace ++ [.refused .enc] }) ∧
    (s.quiescent = true → Memory.wf s.tx.pay = true → ∀ t ag, exec i s = .next t →
      ∃ u, Reaches (pay.length + 4) { t with agenda := List.replicate (pay.length + 4) .txu ++ ag } u ∧
        u.txs = s.txs ++ bytes ∧ u.trace = s.trace ++ [.txdone] ∧ u.tx.st = .idle ∧ u.rx = s.rx ∧ u.rxq = s.rxq)

/-- The decoder as a function of the bytes of one whole frame (42_decode.md R186); none where the bytes are not
exactly one frame. -/
def frameOutcome : List Byte → Option Event
  | h0 :: h1 :: rest =>
    match decodeHeader h0 h1 with
    | .ack => if rest = [] then some (.resp .posack []) else none
    | .nak => if rest = [] then some (.resp .negack []) else none
    | .cdata ll =>
      if rest.length = ll.toNat + 1 then
        if rest.getD ll.toNat 0 = cks8 (h0 :: h1 :: rest.take ll.toNat) then
          some (.resp .data ((rest.take ll.toNat).drop 1))
        else some (.err .checksum)
      else none
    | .sdata =>
      if rest.length = 30 then
        if bigEndian (rest.getD 28 0) (rest.getD 29 0) = cks16 (h0 :: h1 :: rest.take 28) then
          some (.resp .data ((rest.take 28).drop 2))
        else some (.err .checksum)
      else none
    | .malformed _ _ => if rest = [] then some (.err .malformed) else none
    | _ => none
  | _ => none

/-- The rows of the transition table 42_decode.md R185 in which RXU pops a byte: the registers and the byte before,
the state after, the events emitted, and whether RXQ is flushed. -/
inductive RxRow (rx : RxUnit) (b : Byte) : RxSt → List Event → Bool → Prop
  | first : rx.st = .h0 → RxRow rx b .h1 [] false
  | ack : rx.st = .h1 → rx.h0 = 0xA5 → b = 0xA5 → RxRow rx b .idle [.resp .posack []] false
  | nak : rx.st = .h1 → rx.h0 = 0x96 → b = 0x96 → RxRow rx b .idle [.resp .negack []] false
  | cdataEmpty : rx.st = .h1 → rx.h0 = 0x40 → b = 0 → RxRow rx b .ccks [] false
  | cdata : rx.st = .h1 → rx.h0 = 0x40 → 1 ≤ b.toNat → RxRow rx b .cpay [] false
  | sdata : rx.st = .h1 → rx.h0 = 0x42 → b = 0x4D → RxRow rx b .sbody [] false
  | malformed : rx.st = .h1 → legalHeader rx.h0 b = false → RxRow rx b .idle [.err .malformed] true
  | payload : rx.st = .cpay → 2 ≤ rx.rem.toNat → RxRow rx b .cpay [] false
  | payloadLast : rx.st = .cpay → rx.rem = 1 → RxRow rx b .ccks [] false
  | cdataGood : rx.st = .ccks → (rx.acc.toNat + b.toNat) % 256 = 0 →
      RxRow rx b .idle [.resp .data (Memory.readFrom rx.buf 0 rx.len.toNat)] false
  | cdataBad : rx.st = .ccks → (rx.acc.toNat + b.toNat) % 256 ≠ 0 → RxRow rx b .idle [.err .checksum] false
  | body : rx.st = .sbody → 2 ≤ rx.rem.toNat → RxRow rx b .sbody [] false
  | bodyLast : rx.st = .sbody → rx.rem = 1 → RxRow rx b .sckh [] false
  | high : rx.st = .sckh → RxRow rx b .sckl [] false
  | sdataGood : rx.st = .sckl → rx.ckh.toNat * 256 + b.toNat = rx.acc.toNat →
      RxRow rx b .idle [.resp .data (Memory.readFrom rx.buf 0 26)] false
  | sdataBad : rx.st = .sckl → rx.ckh.toNat * 256 + b.toNat ≠ rx.acc.toNat → RxRow rx b .idle [.err .checksum] false

end Sys2Proof.Safety
end

