-- ==== Sys2Proof/Certificates/Slice0/Obligations.lean ====
section
/-! DEFINITION. The statements about the model, each from a rule of spec/. -/

open Sys2Proof Sys2Proof.Machine Sys2Proof.Safety

/-! ## Checksums (40_checksum.md) -/

/-- R130: CKS8(s) answers VAL8((65536 - sum(s)) mod 256), touches nothing else and is never refused, with the rule's
corner cases and example. -/
def Obligations.Cks8AnswersTheSumComplement : Prop :=
  (∀ (bytes : List Byte) (s : State), ∃ b : Byte,
    exec (.cks8 bytes) s = .next { s with trace := s.trace ++ [.val8 b] } ∧
    (b.toNat : Int) = (65536 - (byteSum bytes : Int)) % 256 ∧ (byteSum bytes % 256 = 0 → b = 0)) ∧
  cks8 [] = 0 ∧ cks8 [0x00] = 0 ∧ cks8 [0x80, 0x80] = 0 ∧ cks8 (List.replicate 300 0xFF) = 0x2C ∧
  cks8 [0x68, 0x01, 0x04] = 0x93

/-- R131: CKS16(s) answers VAL16(sum(s) mod 65536), touches nothing else and is never refused, with the rule's corner
cases and example. -/
def Obligations.Cks16AnswersThePlainSum : Prop :=
  (∀ (bytes : List Byte) (s : State), ∃ w : Word16,
    exec (.cks16 bytes) s = .next { s with trace := s.trace ++ [.val16 w] } ∧
    w.toNat = byteSum bytes % 65536 ∧ (byteSum bytes < 65536 → w.toNat = byteSum bytes)) ∧
  cks16 [] = 0 ∧ cks16 (List.replicate 300 0xFF) = 0x2AD4 ∧ cks16 [0x42, 0x4D] = 0x008F

/-- R133, which the spec marks as derived: a 16-bit wrapping accumulator gives both checksums, for sequences of any
length. -/
def Obligations.AccumulatorGivesBothChecksums : Prop :=
  ∀ s : List Byte, cks16 s = accumulate 0 s ∧
    (cks8 s).toNat = (256 - (accumulate 0 s).toNat % 256) % 256 ∧
    ((cks8 s).toNat : Int) = (0 - ((accumulate 0 s).toNat : Int)) % 256

/-- R134, which the spec marks as derived: the two validation forms, and CKS8 as the negation of CKS16 modulo 256. -/
def Obligations.ChecksumValidationForms : Prop :=
  (∀ (k : Byte) (s : List Byte), k = cks8 s ↔ (byteSum s + k.toNat) % 256 = 0) ∧
  (∀ (w : Word16) (s : List Byte), w = cks16 s ↔ w.toNat = byteSum s % 65536) ∧
  (∀ s : List Byte, ((cks8 s).toNat : Int) = (0 - ((cks16 s).toNat : Int)) % 256)

/-- R135 (2) and (3), which the spec marks as derived: in a whole valid CDATA or SDATA frame, replacing one byte behind the
two header bytes (a payload byte or the checksum byte of CDATA, a body byte or a checksum byte of SDATA) by another value
makes the decoder's outcome ERR(CHECKSUM). Beside it the same of the two sums and of the decoder's two tests. The header
bytes and the length byte of CDATA, which the checksums also cover, are shut out: R135 (4) says that a change there need
not give CHECKSUM. -/
def Obligations.PayloadBodyAndChecksumByteErrorsAreCaught : Prop :=
  (∀ (bytes payload : List Byte) (i : Nat) (hi : i < bytes.length) (b : Byte),
    frameOutcome bytes = some (.resp .data payload) → 2 ≤ i → b ≠ bytes[i] →
    frameOutcome (bytes.set i b) = some (.err .checksum)) ∧
  (∀ (ll : Byte) (p : List Byte) (i : Nat) (hi : i < p.length) (b : Byte), b ≠ p[i] →
    cks8 (0x40 :: ll :: p) ≠ cks8 (0x40 :: ll :: p.set i b)) ∧
  (∀ (d : List Byte) (i : Nat) (hi : i < d.length) (b : Byte), b ≠ d[i] →
    cks16 (0x42 :: 0x4D :: d) ≠ cks16 (0x42 :: 0x4D :: d.set i b)) ∧
  (∀ (acc : Word16) (k k' : Byte), sumCloses acc k = true → k' ≠ k → sumCloses acc k' = false) ∧
  (∀ (acc : Word16) (hi lo hi' lo' : Byte), sumEquals acc hi lo = true → (hi', lo') ≠ (hi, lo) →
    sumEquals acc hi' lo' = false)

/-- R136, which the spec marks as derived: the covered bytes of any frame sum to less than 65536, with the rule's
bounds. -/
def Obligations.CoveredSumsStayBelow65536 : Prop :=
  (∀ (cmd : Byte) (pay : List Byte), pay.length ≤ 254 → byteSum (framePre cmd pay) ≤ 65384) ∧
  (∀ (ll : Byte) (p : List Byte), p.length = ll.toNat → byteSum (0x40 :: ll :: p) ≤ 65344) ∧
  (∀ d : List Byte, d.length = 28 → byteSum (0x42 :: 0x4D :: d) ≤ 7283)

/-! ## Requests (41_encode.md, 42_decode.md) -/

/-- R141 (decisions D3, D6, D22): a quiescent block accepts ENC(cmd, pay) with at most 254 payload bytes. The whole next
state: only the TXU registers change; TX_PAY takes the payload at indexes 0 to len(pay) - 1 and keeps every other
element. -/
def Obligations.QuiescentBlockAcceptsEnc : Prop :=
  ∀ (cmd : Byte) (pay : List Byte) (s : State),
    s.tx.st = .idle → s.rx.st = .idle → pay.length ≤ 254 → Memory.wf s.tx.pay = true →
    ∃ buf, exec (.enc cmd pay) s =
        .next { s with tx := { st := .hdr, cmd := cmd, plen := BitVec.ofNat 8 pay.length, pay := buf, idx := 0, acc := 0 } } ∧
      (BitVec.ofNat 8 pay.length : Byte).toNat = pay.length ∧ Memory.wf buf = true ∧
      (∀ (i : Nat) (hi : i < pay.length), Memory.read buf i = pay[i]) ∧
      (∀ a, pay.length ≤ a → Memory.read buf a = Memory.read s.tx.pay a)

/-- R149 (decisions D3, D5, D6): ENC, and so every command row, is refused while a unit is busy, and ENC with more than
254 payload bytes is refused in any state: REFUSED(ENC), and nothing else changes. -/
def Obligations.FramesOutOfTurnAreRefused : Prop :=
  ∀ s : State,
    (∀ cmd pay, (s.tx.st ≠ .idle ∨ s.rx.st ≠ .idle ∨ 254 < pay.length) →
      exec (.enc cmd pay) s = .next { s with trace := s.trace ++ [.refused .enc] }) ∧
    ((s.tx.st ≠ .idle ∨ s.rx.st ≠ .idle) → ∀ i : Instr, i.space = .command →
      exec i s = .next { s with trace := s.trace ++ [.refused .enc] })

/-- R147, R104 (decision D4): the generic CMD with any command code and any payload of its frame is accepted by a
quiescent block exactly as ENC of the same operands; the length byte of its word is not an operand (log 3). -/
def Obligations.GenericCommandIsAcceptedLikeEnc : Prop :=
  ∀ (ll cc : Byte) (pay : List Byte) (s : State), (Instr.cmd ll cc pay).wellFormed = true →
    s.tx.st = .idle → s.rx.st = .idle →
    exec (.cmd ll cc pay) s =
      .next { s with tx := { st := .hdr, cmd := cc, plen := BitVec.ofNat 8 pay.length,
                             pay := Memory.writeFrom s.tx.pay 0 pay, idx := 0, acc := 0 } } ∧
    exec (.cmd ll cc pay) s = exec (.enc cc pay) s ∧
    (BitVec.ofNat 8 pay.length : Byte).toNat = ll.toNat - 1

/-- R150 to R156: each named command is ENC with fixed operands and emits exactly its frame; SET_COEF for every
coefficient byte. -/
def Obligations.NamedCommandsEmitTheirFrames : Prop :=
  EmitsFrame .startMeas 0x01 [] [0x68, 0x01, 0x01, 0x96] ∧
  EmitsFrame .stopMeas 0x02 [] [0x68, 0x01, 0x02, 0x95] ∧
  EmitsFrame .readSample 0x04 [] [0x68, 0x01, 0x04, 0x93] ∧
  (∀ c : Byte, EmitsFrame (.setCoef c) 0x08 [c]
    [0x68, 0x02, 0x08, c, BitVec.ofNat 8 ((256 - (0x72 + c.toNat) % 256) % 256)]) ∧
  EmitsFrame .readCoef 0x10 [] [0x68, 0x01, 0x10, 0x87] ∧
  EmitsFrame .autosendOff 0x20 [] [0x68, 0x01, 0x20, 0x77] ∧
  EmitsFrame .autosendOn 0x40 [] [0x68, 0x01, 0x40, 0x57]

/-- R170 (decisions D5, D6, D23): DEC is accepted by a quiescent block, pops nothing, and is refused by a busy one,
with nothing else changed. -/
def Obligations.DecIsAcceptedOrRefused : Prop :=
  ∀ s : State,
    (s.tx.st = .idle → s.rx.st = .idle →
      exec .dec s = .next { s with rx := { s.rx with st := .h0, len := 0, acc := 0, rem := 0, drop := 0 } }) ∧
    ((s.tx.st ≠ .idle ∨ s.rx.st ≠ .idle) → exec .dec s = .next { s with trace := s.trace ++ [.refused .dec] })

/-! ## The transmit unit (41_encode.md) -/

/-- R142: step T_HDR pushes 0x68 and adds it to TX_ACC modulo 65536; nothing else changes. -/
def Obligations.HeaderStepPushes0x68 : Prop :=
  ∀ (s : State) (ag : List Move), s.agenda = .txu :: ag → s.tx.st = .hdr →
    step s = .next { s with
      agenda := ag
      txs := s.txs ++ [0x68]
      tx := { s.tx with acc := BitVec.ofNat 16 (s.tx.acc.toNat + 0x68), st := .len } }

/-- R143: step T_LEN pushes TX_PLEN + 1, a byte between 1 and 255 (TX_PLEN is at most 254, R23). -/
def Obligations.LengthStepPushesPlenPlusOne : Prop :=
  ∀ (s : State) (ag : List Move), s.agenda = .txu :: ag → s.tx.st = .len → s.tx.plen.toNat ≤ 254 →
    ∃ b : Byte, b.toNat = s.tx.plen.toNat + 1 ∧ 1 ≤ b.toNat ∧ b.toNat ≤ 255 ∧
      step s = .next { s with
        agenda := ag
        txs := s.txs ++ [b]
        tx := { s.tx with acc := BitVec.ofNat 16 (s.tx.acc.toNat + s.tx.plen.toNat + 1), st := .cmd } }

/-- R144: step T_CMD pushes TX_CMD and goes on to the payload, or to the checksum when there is none. -/
def Obligations.CommandStepPushesTxCmd : Prop :=
  ∀ (s : State) (ag : List Move), s.agenda = .txu :: ag → s.tx.st = .cmd →
    step s = .next { s with
      agenda := ag
      txs := s.txs ++ [s.tx.cmd]
      tx := { s.tx with acc := BitVec.ofNat 16 (s.tx.acc.toNat + s.tx.cmd.toNat)
                        st := if s.tx.plen.toNat = 0 then .cks else .pay } }

/-- R145: step T_PAY pushes TX_PAY[TX_IDX] and advances TX_IDX (TX_IDX is below TX_PLEN there, R25, and TX_PLEN at most
254, R23). -/
def Obligations.PayloadStepPushesTheIndexedByte : Prop :=
  ∀ (s : State) (ag : List Move), s.agenda = .txu :: ag → s.tx.st = .pay →
    s.tx.idx.toNat < s.tx.plen.toNat → s.tx.plen.toNat ≤ 254 →
    step s = .next { s with
      agenda := ag
      txs := s.txs ++ [Memory.read s.tx.pay s.tx.idx.toNat]
      tx := { s.tx with acc := BitVec.ofNat 16 (s.tx.acc.toNat + (Memory.read s.tx.pay s.tx.idx.toNat).toNat)
                        idx := BitVec.ofNat 8 (s.tx.idx.toNat + 1)
                        st := if s.tx.idx.toNat + 1 = s.tx.plen.toNat then .cks else .pay } }

/-- R146: step T_CKS pushes (0 - TX_ACC) mod 256, emits TXDONE and goes idle, keeping every other register; with an exact
TX_ACC (R26) the byte is the checksum of the bytes from the header to the end of the payload. -/
def Obligations.ChecksumStepClosesTheFrame : Prop :=
  ∀ (s : State) (ag : List Move), s.agenda = .txu :: ag → s.tx.st = .cks →
    ∃ b : Byte, (b.toNat : Int) = (0 - (s.tx.acc.toNat : Int)) % 256 ∧
      step s = .next { s with
        agenda := ag
        txs := s.txs ++ [b]
        trace := s.trace ++ [.txdone]
        tx := { s.tx with st := .idle } } ∧
      (TxInv s.tx → (b.toNat : Int) = (65536 - (byteSum (sentSoFar s.tx) : Int)) % 256)

/-- R147, which the spec marks as derived: whatever ENV and RXU do in between, the bytes pushed between the acceptance
of ENC(cmd, pay) and its TXDONE are exactly frame(cmd, pay). `ms` is any schedule without HOST and reset that gives TXU
its len(pay) + 4 turns. -/
def Obligations.AcceptedFrameIsPushedUnderAnyInterleaving : Prop :=
  ∀ (s : State) (cmd : Byte) (pay : List Byte) (hq : List HostAct) (ms ag : List Move),
    s.tx.st = .idle → s.rx.st = .idle → pay.length ≤ 254 → Memory.wf s.tx.pay = true →
    s.hostq = .op (0x02 :: cmd :: pay) :: hq → s.agenda = .host :: (ms ++ ag) →
    ms.all notHostNorReset = true → pay.length + 4 ≤ ms.count .txu →
    ∃ t, Reaches (ms.length + 1) s t ∧ t.txs = s.txs ++ frame cmd pay ∧ t.trace = s.trace ++ [.txdone] ∧
      t.tx.st = .idle ∧ t.rx = s.rx ∧ t.flushes = s.flushes ∧ t.hostq = hq ∧ t.agenda = ag

/-- R158, which the spec marks as derived: an accepted ENC reaches TXDONE after exactly TX_PLEN + 4 TXU steps and not
before. -/
def Obligations.EncEndsAfterPlenPlusFourSteps : Prop :=
  ∀ (s : State) (cmd : Byte) (pay : List Byte) (hq : List HostAct) (k : Nat),
    s.tx.st = .idle → s.rx.st = .idle → pay.length ≤ 254 → k ≤ pay.length + 4 →
    s.hostq = .op (0x02 :: cmd :: pay) :: hq → s.agenda = .host :: List.replicate k .txu →
    ∃ t, Reaches (k + 1) s t ∧ t.txs.length = s.txs.length + k ∧
      (t.tx.st = .idle ↔ k = pay.length + 4) ∧
      t.trace = s.trace ++ (if k = pay.length + 4 then [.txdone] else [])

/-- R148, which the spec marks as derived: the shape of every emitted frame, and the frame determines its operands. -/
def Obligations.EmittedFrameShape : Prop :=
  (∀ (cmd : Byte) (pay : List Byte), pay.length ≤ 254 →
    (frame cmd pay).length = pay.length + 4 ∧ (frame cmd pay)[0]? = some 0x68 ∧
    ((frame cmd pay)[1]?.map BitVec.toNat) = some (pay.length + 1) ∧ (frame cmd pay)[2]? = some cmd ∧
    ((frame cmd pay).drop 3).dropLast = pay ∧ byteSum (frame cmd pay) % 256 = 0) ∧
  (∀ (cmd cmd' : Byte) (pay pay' : List Byte), pay.length ≤ 254 → pay'.length ≤ 254 →
    frame cmd pay = frame cmd' pay' → cmd = cmd' ∧ pay = pay')

/-- R37, R68 (decision D21): a step never retracts a byte of TXS, and only a turn of a busy TXU appends one. -/
def Obligations.TransmitStreamOnlyGrows : Prop :=
  ∀ s t : State, step s = .next t →
    t.txs = s.txs ∨ ((schedule s).1 = .txu ∧ s.tx.st ≠ .idle ∧ ∃ b, t.txs = s.txs ++ [b])

/-! ## The receive unit (42_decode.md) -/

/-- R171: step R_H0 pops one byte into RX_H0 and classifies nothing, whatever the byte; silence after it ends in
TIMEOUT, not in MALFORMED. -/
def Obligations.FirstHeaderByteIsOnlyHeld : Prop :=
  (∀ (s : State) (ag : List Move) (b : Byte) (q : List Byte), s.agenda = .rxu :: ag → s.rx.st = .h0 → s.rxq = b :: q →
    step s = .next { s with agenda := ag, rxq := q, rx := { s.rx with h0 := b, st := .h1 } }) ∧
  (∀ (s : State) (ag : List Move), s.agenda = .envTimeout :: ag → s.rx.st = .h1 → s.rxq = [] →
    step s = .next { s with
      agenda := ag, trace := s.trace ++ [.err .timeout], rx := { s.rx with len := 0, st := .idle } })

/-- R172: step R_H1 pops one byte and runs the row that the pair (RX_H0, b) selects, by the map of R101. -/
def Obligations.SecondHeaderByteRunsTheDecodedRow : Prop :=
  ∀ (s : State) (ag : List Move) (b : Byte) (q : List Byte), s.agenda = .rxu :: ag → s.rx.st = .h1 → s.rxq = b :: q →
    step s = exec (decodeHeader s.rx.h0 b) { s with agenda := ag, rxq := q } ∧
    (s.rx.h0 = 0xA5 ∧ b = 0xA5 → decodeHeader s.rx.h0 b = .ack) ∧
    (s.rx.h0 = 0x96 ∧ b = 0x96 → decodeHeader s.rx.h0 b = .nak) ∧
    (s.rx.h0 = 0x40 → decodeHeader s.rx.h0 b = .cdata b) ∧
    (s.rx.h0 = 0x42 ∧ b = 0x4D → decodeHeader s.rx.h0 b = .sdata) ∧
    (¬(s.rx.h0 = 0xA5 ∧ b = 0xA5) → ¬(s.rx.h0 = 0x96 ∧ b = 0x96) → s.rx.h0 ≠ 0x40 → ¬(s.rx.h0 = 0x42 ∧ b = 0x4D) →
      decodeHeader s.rx.h0 b = .malformed s.rx.h0 b)

/-- R101, R105: the classification is total and no pair has two kinds; each kind has exactly the pairs of the map. -/
def Obligations.HeaderMapIsTotalAndDisjoint : Prop :=
  ∀ h0 h1 : Byte,
    (decodeHeader h0 h1 = .ack ↔ h0 = 0xA5 ∧ h1 = 0xA5) ∧
    (decodeHeader h0 h1 = .nak ↔ h0 = 0x96 ∧ h1 = 0x96) ∧
    (∀ ll, decodeHeader h0 h1 = .cdata ll ↔ h0 = 0x40 ∧ ll = h1) ∧
    (decodeHeader h0 h1 = .sdata ↔ h0 = 0x42 ∧ h1 = 0x4D) ∧
    (∀ a b, decodeHeader h0 h1 = .malformed a b ↔ legalHeader h0 h1 = false ∧ a = h0 ∧ b = h1) ∧
    (decodeHeader h0 h1).space = .received

/-- R173, R174: in R_H1, ACK emits RESP(POSACK, []) and NAK emits RESP(NEGACK, []), RXU goes idle, and nothing else
changes; `A5` or `96` followed by any other byte is MALFORMED. -/
def Obligations.AcknowledgesAreDelivered : Prop :=
  (∀ s : State, s.rx.st = .h1 →
    exec .ack s = .next { s with trace := s.trace ++ [.resp .posack []], rx := { s.rx with st := .idle } } ∧
    exec .nak s = .next { s with trace := s.trace ++ [.resp .negack []], rx := { s.rx with st := .idle } }) ∧
  decodeHeader 0xA5 0xA5 = .ack ∧ decodeHeader 0x96 0x96 = .nak ∧
  (∀ b : Byte, b ≠ 0xA5 → decodeHeader 0xA5 b = .malformed 0xA5 b) ∧
  (∀ b : Byte, b ≠ 0x96 → decodeHeader 0x96 b = .malformed 0x96 b)

/-- R175 (decision D7): in R_H1, CDATA with length byte LL starts the sum with 0x40 + LL, the count with LL and the drop
count with 1, and waits for a payload byte, or for the checksum when LL = 0; nothing else changes. -/
def Obligations.CdataFrameStarts : Prop :=
  ∀ (ll : Byte) (s : State), s.rx.st = .h1 →
    exec (.cdata ll) s = .next { s with rx := { s.rx with
      acc := BitVec.ofNat 16 (0x40 + ll.toNat), rem := ll, drop := 1, st := if ll.toNat = 0 then .ccks else .cpay } } ∧
    (BitVec.ofNat 16 (0x40 + ll.toNat) : Word16).toNat = 0x40 + ll.toNat ∧
    decodeHeader 0x40 ll = .cdata ll

/-- R176: in R_H1, SDATA starts the sum with 143, the count with 28 and the drop count with 2, and waits for a body byte;
nothing else changes; `42` followed by any byte other than `4D` is MALFORMED. -/
def Obligations.SdataFrameStarts : Prop :=
  (∀ s : State, s.rx.st = .h1 →
    exec .sdata s = .next { s with rx := { s.rx with acc := 143, rem := 28, drop := 2, st := .sbody } }) ∧
  decodeHeader 0x42 0x4D = .sdata ∧ (∀ b : Byte, b ≠ 0x4D → decodeHeader 0x42 b = .malformed 0x42 b)

/-- R177: in R_H1, MALFORMED flushes RXQ exactly once, emits ERR(MALFORMED) and goes idle, in one step; nothing else
changes. RX_LEN is 0 in R_H1 in every run (R170), which the hypothesis says. -/
def Obligations.MalformedHeaderFlushesOnce : Prop :=
  (∀ (h0 h1 : Byte) (s : State), s.rx.st = .h1 → s.rx.len = 0 →
    exec (.malformed h0 h1) s = .next { s with
      rxq := []
      flushes := s.flushes + 1
      trace := s.trace ++ [.err .malformed]
      rx := { s.rx with st := .idle } }) ∧
  (∀ h0 h1 : Byte, legalHeader h0 h1 = false → decodeHeader h0 h1 = .malformed h0 h1)

/-- The five received rows run in R_H1 only, where the spec puts them ("the rest of step R_H1", R172); in any other
state the model refuses by name. The refusal is the model's choice (log 11); a step never makes it. -/
def Obligations.ReceivedRowsRunOnlyInTheirState : Prop :=
  ∀ (i : Instr) (s : State), i.space = .received → s.rx.st ≠ .h1 → exec i s = .refused .notAtSecondHeaderByte

/-- R178: a payload byte of a CDATA frame is popped and summed; it is dropped while RX_DROP > 0 and else stored at
RX_LEN, and the last one leads to the checksum. RX_REM is at least 1 there (R29), and RX_LEN below 254 where a byte is
stored (R32). Nothing else changes. -/
def Obligations.PayloadByteIsSummedAndKept : Prop :=
  ∀ (s : State) (ag : List Move) (b : Byte) (q : List Byte), s.agenda = .rxu :: ag → s.rx.st = .cpay → s.rxq = b :: q →
    1 ≤ s.rx.rem.toNat →
    (0 < s.rx.drop.toNat → step s = .next { s with agenda := ag, rxq := q, rx := { s.rx with
      acc := BitVec.ofNat 16 (s.rx.acc.toNat + b.toNat)
      drop := BitVec.ofNat 2 (s.rx.drop.toNat - 1)
      rem := BitVec.ofNat 8 (s.rx.rem.toNat - 1)
      st := if s.rx.rem.toNat - 1 = 0 then .ccks else .cpay } }) ∧
    (s.rx.drop.toNat = 0 → s.rx.len.toNat < 254 → Memory.wf s.rx.buf = true →
      ∃ buf, step s = .next { s with agenda := ag, rxq := q, rx := { s.rx with
          acc := BitVec.ofNat 16 (s.rx.acc.toNat + b.toNat)
          buf := buf
          len := BitVec.ofNat 8 (s.rx.len.toNat + 1)
          rem := BitVec.ofNat 8 (s.rx.rem.toNat - 1)
          st := if s.rx.rem.toNat - 1 = 0 then .ccks else .cpay } } ∧
        Memory.wf buf = true ∧ Memory.read buf s.rx.len.toNat = b ∧
        ∀ a, a ≠ s.rx.len.toNat → Memory.read buf a = Memory.read s.rx.buf a)

/-- R179 (decisions D13, D18): the checksum byte of a CDATA frame delivers RX_BUF[0..RX_LEN) when it closes the sum, and
else emits ERR(CHECKSUM); either way RX_LEN is 0 and RXU idle after it, RXQ is not flushed, and nothing else changes.
RX_LEN is at most 254 (R32). -/
def Obligations.CdataChecksumDecides : Prop :=
  ∀ (s : State) (ag : List Move) (b : Byte) (q : List Byte), s.agenda = .rxu :: ag → s.rx.st = .ccks → s.rxq = b :: q →
    s.rx.len.toNat ≤ 254 →
    ((s.rx.acc.toNat + b.toNat) % 256 = 0 → step s = .next { s with
      agenda := ag, rxq := q, trace := s.trace ++ [.resp .data (Memory.readFrom s.rx.buf 0 s.rx.len.toNat)]
      rx := { s.rx with len := 0, st := .idle } }) ∧
    ((s.rx.acc.toNat + b.toNat) % 256 ≠ 0 → step s = .next { s with
      agenda := ag, rxq := q, trace := s.trace ++ [.err .checksum], rx := { s.rx with len := 0, st := .idle } })

/-- R180: a body byte of an SDATA frame, as R178 with R_SCKH in place of R_CCKS. -/
def Obligations.BodyByteIsSummedAndKept : Prop :=
  ∀ (s : State) (ag : List Move) (b : Byte) (q : List Byte), s.agenda = .rxu :: ag → s.rx.st = .sbody → s.rxq = b :: q →
    1 ≤ s.rx.rem.toNat →
    (0 < s.rx.drop.toNat → step s = .next { s with agenda := ag, rxq := q, rx := { s.rx with
      acc := BitVec.ofNat 16 (s.rx.acc.toNat + b.toNat)
      drop := BitVec.ofNat 2 (s.rx.drop.toNat - 1)
      rem := BitVec.ofNat 8 (s.rx.rem.toNat - 1)
      st := if s.rx.rem.toNat - 1 = 0 then .sckh else .sbody } }) ∧
    (s.rx.drop.toNat = 0 → s.rx.len.toNat < 254 → Memory.wf s.rx.buf = true →
      ∃ buf, step s = .next { s with agenda := ag, rxq := q, rx := { s.rx with
          acc := BitVec.ofNat 16 (s.rx.acc.toNat + b.toNat)
          buf := buf
          len := BitVec.ofNat 8 (s.rx.len.toNat + 1)
          rem := BitVec.ofNat 8 (s.rx.rem.toNat - 1)
          st := if s.rx.rem.toNat - 1 = 0 then .sckh else .sbody } } ∧
        Memory.wf buf = true ∧ Memory.read buf s.rx.len.toNat = b ∧
        ∀ a, a ≠ s.rx.len.toNat → Memory.read buf a = Memory.read s.rx.buf a)

/-- R181: the first checksum byte of an SDATA frame is held in RX_CKH and not summed; nothing else changes. -/
def Obligations.ChecksumHighByteIsHeld : Prop :=
  ∀ (s : State) (ag : List Move) (b : Byte) (q : List Byte), s.agenda = .rxu :: ag → s.rx.st = .sckh → s.rxq = b :: q →
    step s = .next { s with agenda := ag, rxq := q, rx := { s.rx with ckh := b, st := .sckl } }

/-- R182 (decisions D13, D18): the second checksum byte of an SDATA frame delivers RX_BUF[0..26) when the received
big-endian value equals RX_ACC, and else emits ERR(CHECKSUM); no flush; nothing else changes. -/
def Obligations.SdataChecksumDecides : Prop :=
  ∀ (s : State) (ag : List Move) (b : Byte) (q : List Byte), s.agenda = .rxu :: ag → s.rx.st = .sckl → s.rxq = b :: q →
    (s.rx.ckh.toNat * 256 + b.toNat = s.rx.acc.toNat → step s = .next { s with
      agenda := ag, rxq := q, trace := s.trace ++ [.resp .data (Memory.readFrom s.rx.buf 0 26)]
      rx := { s.rx with len := 0, st := .idle } }) ∧
    (s.rx.ckh.toNat * 256 + b.toNat ≠ s.rx.acc.toNat → step s = .next { s with
      agenda := ag, rxq := q, trace := s.trace ++ [.err .checksum], rx := { s.rx with len := 0, st := .idle } })

/-- R183 (decisions D8, D9): the timeout ENV offers is taken by a decode in progress that finds RXQ empty, with
ERR(TIMEOUT) and no flush; while a byte is available, or with no decode in progress, nothing happens. -/
def Obligations.TimeoutEndsAWaitingDecode : Prop :=
  ∀ (s : State) (ag : List Move), s.agenda = .envTimeout :: ag →
    (s.rx.st ≠ .idle → s.rxq = [] → step s = .next { s with
      agenda := ag, trace := s.trace ++ [.err .timeout], rx := { s.rx with len := 0, st := .idle } }) ∧
    (s.rx.st = .idle ∨ s.rxq ≠ [] → step s = .next { s with agenda := ag })

/-- R184, R170, which the spec marks as derived: with RXQ empty, or with no decode in progress, a turn of RXU holds every
register and every stream. -/
def Obligations.WaitingHoldsEverything : Prop :=
  ∀ (s : State) (ag : List Move), s.agenda = .rxu :: ag → (s.rxq = [] ∨ s.rx.st = .idle) →
    step s = .next { s with agenda := ag }

/-- R185, which the spec marks as derived: every turn of RXU that pops a byte is a row of the transition table, with
its events and its flush, and leaves TXU and TXS alone. -/
def Obligations.ReceiveTurnsFollowTheTable : Prop :=
  ∀ (s t : State) (ag : List Move) (b : Byte) (q : List Byte),
    s.agenda = .rxu :: ag → s.rx.st ≠ .idle → s.rxq = b :: q → step s = .next t →
    ∃ es flush, RxRow s.rx b t.rx.st es flush ∧ t.trace = s.trace ++ es ∧ t.rxq = (if flush = true then [] else q) ∧
      t.flushes = s.flushes + (if flush = true then 1 else 0) ∧ t.tx = s.tx ∧ t.txs = s.txs

/-- R184, R185, which the spec marks as derived: a register of RXU changes only in a turn of RXU that pops a byte, in a
timeout on an empty RXQ, when a quiescent block accepts a DEC, or in a reset. -/
def Obligations.OnlyTheseMovesChangeTheReceiveUnit : Prop :=
  ∀ s t : State, step s = .next t → t.rx ≠ s.rx →
    ((schedule s).1 = .rxu ∧ s.rx.st ≠ .idle ∧ s.rxq ≠ []) ∨
    ((schedule s).1 = .envTimeout ∧ s.rx.st ≠ .idle ∧ s.rxq = [] ∧ t.rx.st = .idle) ∨
    ((schedule s).1 = .host ∧ s.tx.st = .idle ∧ s.rx.st = .idle ∧ t.rx.st = .h0) ∨
    ((schedule s).1 = .reset ∧ t.rx = RxUnit.reset)

/-- R157, R158, which the spec marks as derived: a register of TXU changes only in a turn of a busy TXU, when a quiescent
block accepts a frame, or in a reset; nothing aborts a transmission (R68). -/
def Obligations.OnlyTheseMovesChangeTheTransmitUnit : Prop :=
  ∀ s t : State, step s = .next t → t.tx ≠ s.tx →
    ((schedule s).1 = .txu ∧ s.tx.st ≠ .idle) ∨
    ((schedule s).1 = .host ∧ s.tx.st = .idle ∧ s.rx.st = .idle ∧ t.tx.st = .hdr) ∨
    ((schedule s).1 = .reset ∧ t.tx = TxUnit.reset)

/-- R186, R187, which the spec marks as derived: a DEC over the bytes of one whole frame gives the outcome the function
of those bytes gives, consumes exactly those bytes, flushes only for MALFORMED, and leaves the transmit side alone.
`bytes` is any whole frame or malformed pair, `q` whatever follows it. -/
def Obligations.DecoderIsAFunctionOfTheFrame : Prop :=
  ∀ (s : State) (bytes q : List Byte) (e : Event) (hq : List HostAct) (ag : List Move),
    s.tx.st = .idle → s.rx.st = .idle → Memory.wf s.rx.buf = true →
    s.rxq = bytes ++ q → frameOutcome bytes = some e →
    s.hostq = .op [0x03] :: hq → s.agenda = .host :: (List.replicate bytes.length .rxu ++ ag) →
    ∃ t, Reaches (bytes.length + 1) s t ∧ t.trace = s.trace ++ [e] ∧
      t.rxq = (if e = .err .malformed then [] else q) ∧
      t.flushes = s.flushes + (if e = .err .malformed then 1 else 0) ∧
      t.rx.st = .idle ∧ t.rx.len = 0 ∧ t.tx = s.tx ∧ t.txs = s.txs ∧ t.hostq = hq ∧ t.agenda = ag

/-- R189 (decisions D14, D19): decoding does not depend on what was sent. Two states that agree on RXU and RXQ, and on
nothing else of the block, take the same turn of RXU: the same registers, the same queue, the same events. -/
def Obligations.DecodingIgnoresTheTransmitter : Prop :=
  ∀ (s s' t : State) (ag ag' : List Move), s.agenda = .rxu :: ag → s'.agenda = .rxu :: ag' →
    s'.rx = s.rx → s'.rxq = s.rxq → step s = .next t →
    ∃ t' es, step s' = .next t' ∧ t'.rx = t.rx ∧ t'.rxq = t.rxq ∧
      t.trace = s.trace ++ es ∧ t'.trace = s'.trace ++ es ∧ t'.tx = s'.tx ∧ t.tx = s.tx

/-! ## The streams, the trace and the units together -/

/-- R74 (decision D6): a decode never overlaps a transmission. From a state of the invariant, a byte is pushed only while
no decode is in progress, and RXU pops a byte only while no frame is being sent. -/
def Obligations.TrafficIsHalfDuplex : Prop :=
  ∀ s t : State, Inv s → step s = .next t →
    (t.txs ≠ s.txs → s.rx.st = .idle) ∧ ((schedule s).1 = .rxu → t.rxq ≠ s.rxq → s.tx.st = .idle)

/-- R69 (decision D17): the block flushes in exactly one situation, a malformed header in step R_H1, once. -/
def Obligations.BlockFlushesOnlyOnMalformed : Prop :=
  ∀ s t : State, step s = .next t → t.flushes ≠ s.flushes →
    (schedule s).1 = .rxu ∧ s.rx.st = .h1 ∧ t.flushes = s.flushes + 1 ∧ t.rxq = [] ∧
    t.trace = s.trace ++ [.err .malformed] ∧ ∃ b q, s.rxq = b :: q ∧ legalHeader s.rx.h0 b = false

/-- R36, R73, which the spec marks as derived: RXQ is a queue. A step leaves it, appends ENV's byte at the back, removes
the front byte by RXU, empties it by RXU on a malformed header pair (one flush counted) or by HOST's own flush on a
quiescent block (which touches neither unit, TXS, the trace nor the block's flush count), or, only where RXQ_MODEL is
lossy, loses one byte by ENV (log 12). -/
def Obligations.ReceiveQueueIsFirstInFirstOut : Prop :=
  ∀ s t : State, step s = .next t →
    t.rxq = s.rxq ∨ (∃ b, (schedule s).1 = .envByte b ∧ t.rxq = s.rxq ++ [b]) ∨
    ((schedule s).1 = .rxu ∧ s.rx.st ≠ .idle ∧ ∃ b, s.rxq = b :: t.rxq) ∨
    ((schedule s).1 = .rxu ∧ s.rx.st = .h1 ∧ t.rxq = [] ∧ t.flushes = s.flushes + 1 ∧
      ∃ b q, s.rxq = b :: q ∧ legalHeader s.rx.h0 b = false) ∨
    ((schedule s).1 = .host ∧ s.quiescent = true ∧ (nextAct (schedule s).2).1 = .flush ∧ t.rxq = [] ∧
      t.tx = s.tx ∧ t.rx = s.rx ∧ t.txs = s.txs ∧ t.trace = s.trace ∧ t.flushes = s.flushes) ∨
    (Config.rxqLossy = true ∧ ∃ k, (schedule s).1 = .envDrop k ∧ t.rxq = s.rxq.eraseIdx k)

/-- R10, R13 (decision D5): a step emits at most one event and never takes one back; a refusal changes neither unit and
moves no byte. -/
def Obligations.TraceGrowsByAtMostOneEvent : Prop :=
  ∀ s t : State, step s = .next t →
    (t.trace = s.trace ∨ ∃ e, t.trace = s.trace ++ [e]) ∧
    (∀ op, t.trace = s.trace ++ [.refused op] →
      t.tx = s.tx ∧ t.rx = s.rx ∧ t.rxq = s.rxq ∧ t.txs = s.txs ∧ t.flushes = s.flushes)

/-- R11, R36, R72 (decision D20): three of ENV's four moves. A byte is appended to RXQ; a byte of TXS not yet taken is
taken; a queued byte is lost only where RXQ_MODEL is lossy (log 12). Nothing of the block changes. ENV's fourth move, the
timeout, may change RXU (log 13): `TimeoutEndsAWaitingDecode` is about it. -/
def Obligations.AppendTakeAndLossMovesTouchOnlyTheStreams : Prop :=
  ∀ (s : State) (ag : List Move),
    (∀ b, s.agenda = .envByte b :: ag → step s = .next { s with agenda := ag, rxq := s.rxq ++ [b] }) ∧
    (s.agenda = .envTake :: ag →
      step s = .next { s with agenda := ag, txTaken := if s.txTaken < s.txs.length then s.txTaken + 1 else s.txTaken }) ∧
    (∀ k, s.agenda = .envDrop k :: ag →
      step s = .next { s with agenda := ag, rxq := if Config.rxqLossy = true then s.rxq.eraseIdx k else s.rxq })

/-- R69, R75, R222: HOST flushes RXQ on the transport and goes past a wait only while the block is quiescent; the settling
wait is nothing to the block. The acts are the model's form (log 5, log 14); that a wait is for both units idle, also where
a reset cut the operation (log 22) or the request was REFUSED (log 24), is the model's choice. -/
def Obligations.HostWaitsForQuiescence : Prop :=
  ∀ (s : State) (ag : List Move) (hq : List HostAct), s.agenda = .host :: ag →
    (s.hostq = .flush :: hq → s.quiescent = true → step s = .next { s with agenda := ag, hostq := hq, rxq := [] }) ∧
    (s.hostq = .await :: hq → s.quiescent = true → step s = .next { s with agenda := ag, hostq := hq }) ∧
    (s.hostq = .flush :: hq ∨ s.hostq = .await :: hq → s.quiescent = false → step s = .next { s with agenda := ag }) ∧
    (s.hostq = .settle :: hq → step s = .next { s with agenda := ag, hostq := hq })

/-- R225, R303 (environment rules): from a quiescent block the initialisation protocol pushes
`68 01 20 77 68 01 02 95`, touches no register of RXU, and leaves RXQ empty at its flush. -/
def Obligations.InitialisationSendsTwoFramesAndFlushes : Prop :=
  ∀ (s : State) (hq : List HostAct) (ag : List Move),
    s.quiescent = true → s.hostq = initScript ++ hq →
    s.agenda = .host :: (List.replicate 4 .txu ++ [.host, .host] ++ List.replicate 4 .txu ++ [.host, .host, .host] ++ ag) →
    ∃ t, Reaches 14 s t ∧ t.txs = s.txs ++ [0x68, 0x01, 0x20, 0x77, 0x68, 0x01, 0x02, 0x95] ∧
      t.rx = s.rx ∧ t.rxq = [] ∧ t.trace = s.trace ++ [.txdone, .txdone] ∧ t.hostq = hq ∧ t.quiescent = true ∧
      t.agenda = ag

/-- R227 to R230 (environment rules): the driver refuses a coefficient outside 30 to 200 before any request and sends the
others as one byte; the sample decoders take the fields the rules name, on the rules' examples. -/
def Obligations.HostBoundsAndSampleFields : Prop :=
  (∀ c : Nat, (c < 30 ∨ 200 < c → driverScript (.setCoefficient c) = .error .invalidArgument) ∧
    (30 ≤ c → c ≤ 200 →
      driverScript (.setCoefficient c) = .ok [.op [0x02, 0x08, BitVec.ofNat 8 c], .await, .op [0x03], .await])) ∧
  decodeCompact [0, 10, 0, 20, 0, 30, 0, 40, 0, 99, 0, 99] = some { pm1 := 10, pm25 := 20, pm4 := 30, pm10 := 40 } ∧
  decodeStandardShort [0, 55, 0, 77] = some { pm25 := 55, pm10 := 77 } ∧
  decodeStandardLong [0, 0, 0, 55, 0, 77, 0, 3, 0, 4, 0, 5, 0, 6, 0, 7, 0, 8, 0, 9, 0, 10, 0, 11, 0, 12] =
    some { pm25 := 55, pm10 := 77 }

/-! ## Decoding -/

/-- The model's fetch of a host request (log 1, log 2): when HOST is to move and the bytes at the front of its program
decode to an instruction, the step is that instruction's meaning, past the request; bytes that are no request are
refused by name (log 20). -/
def Obligations.StepRunsTheDecodedRequest : Prop :=
  ∀ (s : State) (ag : List Move) (hq : List HostAct) (bytes : List Byte), s.agenda = .host :: ag →
    (s.hostq = .op bytes :: hq →
      (∀ i, decode .hostop bytes = .ok i → step s = exec i { s with agenda := ag, hostq := hq }) ∧
      (∀ e, decode .hostop bytes = .error e → step s = .refused (.badRequest e))) ∧
    (s.hostq = .frame bytes :: hq →
      (∀ i, decode .command bytes = .ok i → step s = exec i { s with agenda := ag, hostq := hq }) ∧
      (∀ e, decode .command bytes = .error e → step s = .refused (.badRequest e)))

/-- Decode and encode agree: for every well-formed instruction of all three spaces, decoding its word gives it back, with
every operand at every value. -/
def Obligations.DecodeOfEncodeIsTheInstruction : Prop :=
  ∀ i : Instr, i.wellFormed = true → decode i.space (encode i) = .ok i

/-- The other direction: what the decoder reads is well formed, belongs to the space, and encodes to the same bytes, so
each word has one meaning and no bit of it is dropped. -/
def Obligations.EncodeOfDecodeIsTheWord : Prop :=
  ∀ (sp : Space) (bytes : List Byte) (i : Instr), decode sp bytes = .ok i →
    i.wellFormed = true ∧ i.space = sp ∧ encode i = bytes

/-- R111 (decision D11): the decoder picks the row of the opcode table that mask, match and priority select. -/
def Obligations.DecoderFollowsTheOpcodeTable : Prop :=
  ∀ (sp : Space) (bytes : List Byte) (i : Instr), decode sp bytes = .ok i → selectRow sp bytes = some i.mnemonic

/-- The layout of a host request, which is the model's choice (log 1; the select values are the spec's decision D11): the
operation select in the first byte, then the operands, for every operand; a select above 3 is no request. -/
def Obligations.HostRequestsDecodeByOperationByte : Prop :=
  ∀ (o cmd : Byte) (bytes : List Byte),
    decode .hostop (0x00 :: bytes) = .ok (.cks8 bytes) ∧ decode .hostop (0x01 :: bytes) = .ok (.cks16 bytes) ∧
    decode .hostop (0x02 :: cmd :: bytes) = .ok (.enc cmd bytes) ∧ decode .hostop [0x03] = .ok .dec ∧
    (3 < o.toNat → decode .hostop (o :: bytes) = .error .unknownOp)

/-- Words written out from the spec's tables decode to what they stand for (R91 to R94, R103, R108). -/
def Obligations.WordsOfTheTablesDecode : Prop :=
  decode .hostop [0x00, 0x68, 0x01] = .ok (.cks8 [0x68, 0x01]) ∧ decode .hostop [0x01] = .ok (.cks16 []) ∧
  decode .hostop [0x02, 0x08, 0x64] = .ok (.enc 0x08 [0x64]) ∧ decode .hostop [0x03] = .ok .dec ∧
  decode .command [0x68, 0x01, 0x04] = .ok .readSample ∧ decode .command [0x68, 0x02, 0x08, 0x64] = .ok (.setCoef 0x64) ∧
  decode .command [0x68, 0x04, 0x55, 0x01, 0x02, 0x03] = .ok (.cmd 0x04 0x55 [0x01, 0x02, 0x03]) ∧
  decode .received [0xA5, 0xA5] = .ok .ack ∧ decode .received [0x40, 0x05] = .ok (.cdata 0x05) ∧
  decode .received [0x42, 0x4D] = .ok .sdata ∧ decode .received [0x68, 0x01] = .ok (.malformed 0x68 0x01)

/-! ## Reset and invariants -/

/-- R40, R300 (decision D12): after reset both units are idle and every register is 0, every element of both payload
buffers too. That RXQ, TXS, the trace and the model's own fields are empty is the model's choice (log 4, 5, 7, 9). -/
def Obligations.ResetLeavesTheBlockQuiescentAndZero : Prop :=
  State.reset.tx.st = .idle ∧ State.reset.tx.cmd = 0 ∧ State.reset.tx.plen = 0 ∧ State.reset.tx.idx = 0 ∧
  State.reset.tx.acc = 0 ∧ (∀ i, Memory.read State.reset.tx.pay i = 0) ∧
  State.reset.rx.st = .idle ∧ State.reset.rx.h0 = 0 ∧ State.reset.rx.rem = 0 ∧ State.reset.rx.drop = 0 ∧
  State.reset.rx.acc = 0 ∧ State.reset.rx.ckh = 0 ∧ State.reset.rx.len = 0 ∧ (∀ i, Memory.read State.reset.rx.buf i = 0) ∧
  State.reset.rxq = [] ∧ State.reset.txs = [] ∧ State.reset.trace = []

/-- R300, R302 (decisions D12, D30; log 15): a reset of the block in any state resets the two units and nothing else: no
byte moves, no flush, no event. -/
def Obligations.BlockResetTouchesOnlyTheUnits : Prop :=
  ∀ (s : State) (ag : List Move), s.agenda = .reset :: ag →
    step s = .next { s with agenda := ag, tx := State.reset.tx, rx := State.reset.rx }

/-- The state after reset is in the invariant. -/
def Obligations.ResetSatisfiesInv : Prop :=
  Inv State.reset

/-- Every step of every agent keeps the invariant: half duplex (R74), counters in range (R23, R25, R29, R30, R32), exact
and unwrapped sums (R26, R31), canonical payload buffers, and ENV takes only pushed bytes. -/
def Obligations.EveryStepKeepsInv : Prop :=
  ∀ s t : State, Inv s → step s = .next t → Inv t

/-- From a state of the invariant no step faults: the only stop is a host request whose bytes are no request. -/
def Obligations.NoFaultFromInv : Prop :=
  ∀ s : State, Inv s → SafeOutcome (step s)
end

