-- ==== Sys2Proof/Laws/Checksum.lean ====
section
/-! SUPPORT. Sums, accumulators and the two checksums as numbers (40_checksum.md R130 to R134). -/

namespace Sys2Proof.Machine

@[simp] theorem byteSum_nil : byteSum [] = 0 := rfl

@[simp] theorem byteSum_cons (b : Byte) (s : List Byte) : byteSum (b :: s) = b.toNat + byteSum s := rfl

@[simp] theorem byteSum_append (s t : List Byte) : byteSum (s ++ t) = byteSum s + byteSum t := by
  induction s with
  | nil => simp
  | cons b s ih => simp [ih, Nat.add_assoc]

theorem byteSum_replicate (n : Nat) (b : Byte) : byteSum (List.replicate n b) = n * b.toNat := by
  induction n with
  | zero => simp
  | succ n ih => simp [List.replicate_succ, ih, Nat.add_mul, Nat.add_comm]

/-- Replacing one byte changes the sum by the difference of the two bytes (R135). -/
theorem byteSum_set (s : List Byte) (i : Nat) (hi : i < s.length) (b : Byte) :
    byteSum (s.set i b) + s[i].toNat = byteSum s + b.toNat := by
  induction s generalizing i with
  | nil => simp at hi
  | cons a s ih =>
    cases i with
    | zero => simp only [List.set_cons_zero, byteSum_cons, List.getElem_cons_zero]; omega
    | succ i =>
      have := ih i (by simpa using hi)
      simp only [List.set_cons_succ, byteSum_cons, List.getElem_cons_succ]
      omega

theorem byteSum_le (s : List Byte) : byteSum s ≤ 255 * s.length := by
  induction s with
  | nil => simp
  | cons b s ih => have := b.isLt; simp only [byteSum_cons, List.length_cons]; omega

@[simp] theorem accAdd_toNat (acc : Word16) (b : Byte) : (accAdd acc b).toNat = (acc.toNat + b.toNat) % 65536 := by
  simp [accAdd, BitVec.toNat_add]

theorem accumulate_toNat (acc : Word16) (s : List Byte) :
    (accumulate acc s).toNat = (acc.toNat + byteSum s) % 65536 := by
  induction s generalizing acc with
  | nil => have := acc.isLt; simp only [accumulate, byteSum_nil]; omega
  | cons b s ih => rw [accumulate, ih, accAdd_toNat, byteSum_cons]; omega

@[simp] theorem cks8_toNat_int (s : List Byte) : ((cks8 s).toNat : Int) = (65536 - (byteSum s : Int)) % 256 := by
  simp only [cks8, BitVec.toNat_ofInt]
  omega

theorem cks8_toNat (s : List Byte) : (cks8 s).toNat = (256 - byteSum s % 256) % 256 := by
  have := cks8_toNat_int s
  omega

@[simp] theorem cks16_toNat (s : List Byte) : (cks16 s).toNat = byteSum s % 65536 := by
  simp [cks16]

theorem closingByte_toNat (acc : Word16) : (closingByte acc).toNat = (256 - acc.toNat % 256) % 256 := by
  have := acc.isLt
  simp only [closingByte, BitVec.toNat_setWidth, BitVec.toNat_sub]
  simp
  omega

/-- The byte TXU closes a frame with is the checksum of the bytes its accumulator has summed (R133, R146). -/
theorem closingByte_eq_cks8 (acc : Word16) (s : List Byte) (h : acc.toNat = byteSum s % 65536) :
    closingByte acc = cks8 s := by
  apply BitVec.eq_of_toNat_eq
  rw [closingByte_toNat, cks8_toNat, h]
  omega

@[simp] theorem bigEndian_toNat (hi lo : Byte) : (bigEndian hi lo).toNat = hi.toNat * 256 + lo.toNat := by
  have := lo.isLt
  have := hi.isLt
  simp only [bigEndian, BitVec.toNat_append]
  rw [Nat.shiftLeft_eq, show (2 : Nat) ^ 8 = 256 from rfl, Nat.mul_comm, ← Nat.two_pow_add_eq_or_of_lt (i := 8) (by omega)]

/-- The checksum of a command-response data frame closes the sum exactly when it is CKS8 of the bytes summed (R134). -/
theorem sumCloses_iff (acc : Word16) (s : List Byte) (b : Byte) (h : acc.toNat = byteSum s % 65536) :
    sumCloses acc b = true ↔ b = cks8 s := by
  rw [sumCloses, decide_eq_true_eq, ← BitVec.toNat_inj, cks8_toNat, h]
  have := b.isLt
  omega

/-- The checksum of a streaming data frame is right exactly when it is CKS16 of the bytes summed (R134). -/
theorem sumEquals_iff (acc : Word16) (s : List Byte) (hi lo : Byte) (h : acc.toNat = byteSum s % 65536) :
    sumEquals acc hi lo = true ↔ bigEndian hi lo = cks16 s := by
  rw [sumEquals, decide_eq_true_eq]
  have : acc = cks16 s := BitVec.eq_of_toNat_eq (by rw [cks16_toNat, h])
  rw [this]

theorem lengthByte_toNat (plen : Byte) (h : plen.toNat ≤ 254) : (lengthByte plen).toNat = plen.toNat + 1 := by
  simp only [lengthByte, BitVec.toNat_add]
  simp
  omega

end Sys2Proof.Machine
end

