-- ==== Sys2Proof/Laws/Memory.lean ====
section
/-! SUPPORT. The payload buffers: a read after a write, and every write keeps the canonical form. -/

namespace Sys2Proof.Machine

@[simp] theorem Memory.read_nil (a : Nat) : Memory.read [] a = 0 := rfl

/-- A read of the index just written gives the byte written. -/
@[simp] theorem Memory.read_write_same (m : Memory) (a : Nat) (b : Byte) (h : Memory.risingFrom m 0 = true) :
    Memory.read (Memory.write m a b) a = b := by
  suffices H : ∀ n, Memory.risingFrom m n = true → Memory.read (Memory.write m a b) a = b from H 0 h
  clear h
  induction m with
  | nil =>
    intro n _
    simp only [Memory.write]
    split_ifs with hb
    · exact hb.symm
    · simp [Memory.read]
  | cons c m ih =>
    obtain ⟨k, v⟩ := c
    intro n h
    simp only [Memory.risingFrom, Bool.and_eq_true, decide_eq_true_eq] at h
    have tail : ∀ (m : Memory) (n a : Nat), a < n → Memory.risingFrom m n = true → Memory.read m a = 0 := by
      intro m
      induction m with
      | nil => intros; rfl
      | cons c m ih =>
        obtain ⟨k, v⟩ := c
        intro n a ha h
        simp only [Memory.risingFrom, Bool.and_eq_true, decide_eq_true_eq] at h
        have : k ≠ a := by omega
        simp only [Memory.read, this, if_false]
        exact ih (k + 1) a (by omega) h.2
    simp only [Memory.write]
    split_ifs with h1 h2 h3 h4
    · have : k ≠ a := by omega
      simp only [Memory.read, this, if_false]
      rw [tail m (k + 1) a (by omega) h.2, h2]; rfl
    · simp [Memory.read]
    · subst h3; rw [tail m (a + 1) a (by omega) h.2, h4]; rfl
    · simp [Memory.read]
    · have : k ≠ a := by omega
      simp only [Memory.read, this, if_false]
      exact ih (k + 1) h.2

/-- A write leaves every other index alone. -/
theorem Memory.read_write_other (m : Memory) (a a' : Nat) (b : Byte) (h : a' ≠ a) :
    Memory.read (Memory.write m a b) a' = Memory.read m a' := by
  induction m with
  | nil =>
    simp only [Memory.write]
    split_ifs
    · rfl
    · simp [Memory.read, h.symm, Memory.unlisted]
  | cons c m ih =>
    obtain ⟨k, v⟩ := c
    simp only [Memory.write]
    split_ifs with h1 h2 h3 h4
    · rfl
    · simp [Memory.read, h.symm]
    · subst h3; simp [Memory.read, h.symm]
    · subst h3; simp [Memory.read, h.symm]
    · simp only [Memory.read]; rw [ih]

theorem Memory.risingFrom_mono {m : Memory} {n n' : Nat} (h : Memory.risingFrom m n = true) (hn : n' ≤ n) :
    Memory.risingFrom m n' = true := by
  cases m with
  | nil => rfl
  | cons c m =>
    obtain ⟨k, v⟩ := c
    simp only [Memory.risingFrom, Bool.and_eq_true, decide_eq_true_eq] at h ⊢
    exact ⟨⟨by omega, h.1.2⟩, h.2⟩

theorem Memory.risingFrom_write (m : Memory) (n a : Nat) (b : Byte) (h : Memory.risingFrom m n = true) (ha : n ≤ a) :
    Memory.risingFrom (Memory.write m a b) n = true := by
  induction m generalizing n with
  | nil => by_cases hb : b = Memory.unlisted <;> simp [Memory.write, Memory.risingFrom, hb, ha]
  | cons c m ih =>
    obtain ⟨k, v⟩ := c
    simp only [Memory.risingFrom, Bool.and_eq_true, decide_eq_true_eq] at h
    obtain ⟨⟨hk, hv⟩, hm⟩ := h
    simp only [Memory.write]
    split_ifs with h1 h2 h3 h4
    · simp [Memory.risingFrom, hk, hv, hm]
    · simp [Memory.risingFrom, ha, h2, hv, hm]; omega
    · exact Memory.risingFrom_mono hm (by omega)
    · subst h3; simp [Memory.risingFrom, ha, h4, hm]
    · simp [Memory.risingFrom, hk, hv]; exact ih (k + 1) hm (by omega)

theorem Memory.within_write (m : Memory) (a : Nat) (b : Byte) (h : Memory.within m = true) (ha : a < Config.bufferSize) :
    Memory.within (Memory.write m a b) = true := by
  induction m with
  | nil => by_cases hb : b = Memory.unlisted <;> simp [Memory.write, Memory.within, hb, ha]
  | cons c m ih =>
    obtain ⟨k, v⟩ := c
    simp only [Memory.within, Bool.and_eq_true, decide_eq_true_eq] at h
    simp only [Memory.write]
    split_ifs <;> simp [Memory.within, h.1, h.2, ha, ih h.2]

/-- Writing an element of a buffer keeps its canonical form. -/
theorem Memory.wf_write (m : Memory) (a : Nat) (b : Byte) (h : Memory.wf m = true) (ha : a < Config.bufferSize) :
    Memory.wf (Memory.write m a b) = true := by
  simp only [Memory.wf, Bool.and_eq_true] at h ⊢
  exact ⟨Memory.risingFrom_write m 0 a b h.1 (Nat.zero_le _), Memory.within_write m a b h.2 ha⟩

theorem Memory.wf_rising {m : Memory} (h : Memory.wf m = true) : Memory.risingFrom m 0 = true := by
  simp only [Memory.wf, Bool.and_eq_true] at h; exact h.1

@[simp] theorem Memory.wf_nil : Memory.wf [] = true := rfl

/-- Writing a run of elements keeps the canonical form. -/
theorem Memory.wf_writeFrom (bs : List Byte) (m : Memory) (a : Nat) (h : Memory.wf m = true)
    (ha : a + bs.length ≤ Config.bufferSize) : Memory.wf (Memory.writeFrom m a bs) = true := by
  induction bs generalizing m a with
  | nil => exact h
  | cons b bs ih =>
    simp only [List.length_cons] at ha
    exact ih _ _ (Memory.wf_write m a b h (by omega)) (by omega)

/-- An index outside the run written reads as before. -/
theorem Memory.read_writeFrom_outside (bs : List Byte) (m : Memory) (a a' : Nat) (h : a' < a ∨ a + bs.length ≤ a') :
    Memory.read (Memory.writeFrom m a bs) a' = Memory.read m a' := by
  induction bs generalizing m a with
  | nil => rfl
  | cons b bs ih =>
    simp only [List.length_cons] at h
    rw [Memory.writeFrom, ih _ _ (by omega), Memory.read_write_other _ _ _ _ (by omega)]

/-- An index inside the run written reads as the byte written there. -/
theorem Memory.read_writeFrom_inside (bs : List Byte) (m : Memory) (a i : Nat) (hm : Memory.wf m = true)
    (ha : a + bs.length ≤ Config.bufferSize) (hi : i < bs.length) :
    Memory.read (Memory.writeFrom m a bs) (a + i) = bs[i] := by
  induction bs generalizing m a i with
  | nil => simp at hi
  | cons b bs ih =>
    simp only [List.length_cons] at ha hi
    have hw := Memory.wf_write m a b hm (by omega)
    cases i with
    | zero =>
      rw [Memory.writeFrom, Memory.read_writeFrom_outside _ _ _ _ (by omega)]
      simpa using Memory.read_write_same m a b (Memory.wf_rising hm)
    | succ i =>
      have := ih _ (a + 1) i hw (by omega) (by omega)
      simpa [Memory.writeFrom, Nat.add_assoc, Nat.add_comm 1 i] using this

@[simp] theorem Memory.length_readFrom (m : Memory) (a n : Nat) : (Memory.readFrom m a n).length = n := by
  induction n generalizing a with
  | zero => rfl
  | succ n ih => simp [Memory.readFrom, ih]

/-- One more byte at the end of a run read. -/
theorem Memory.readFrom_succ_end (m : Memory) (a n : Nat) :
    Memory.readFrom m a (n + 1) = Memory.readFrom m a n ++ [Memory.read m (a + n)] := by
  induction n generalizing a with
  | zero => simp [Memory.readFrom]
  | succ n ih =>
    rw [Memory.readFrom, ih (a + 1), Memory.readFrom]
    simp [Nat.add_comm, Nat.add_left_comm]

/-- A run is read the same from two buffers that agree on it. -/
theorem Memory.readFrom_congr (m m' : Memory) (a n : Nat)
    (h : ∀ i, a ≤ i → i < a + n → Memory.read m i = Memory.read m' i) :
    Memory.readFrom m a n = Memory.readFrom m' a n := by
  induction n generalizing a with
  | zero => rfl
  | succ n ih =>
    rw [Memory.readFrom, Memory.readFrom, h a (by omega) (by omega), ih (a + 1) (fun i h1 h2 => h i (by omega) (by omega))]

/-- Reading back a run just written. -/
theorem Memory.readFrom_writeFrom (bs : List Byte) (m : Memory) (a : Nat) (hm : Memory.wf m = true)
    (ha : a + bs.length ≤ Config.bufferSize) :
    Memory.readFrom (Memory.writeFrom m a bs) a bs.length = bs := by
  have H : ∀ n ≤ bs.length, Memory.readFrom (Memory.writeFrom m a bs) a n = bs.take n := by
    intro n hn
    induction n with
    | zero => rfl
    | succ n ih =>
      rw [Memory.readFrom_succ_end, ih (by omega), Memory.read_writeFrom_inside bs m a n hm ha (by omega)]
      simp
  simpa using H bs.length le_rfl

end Sys2Proof.Machine
end

