-- ==== Sys2Proof/Laws/PerInstr.lean ====
section
/-! SUPPORT. The family SelectsRow: the word of a well-formed instruction selects, among the rows of its space, the
row of its own mnemonic (30_encoding.md R111), one lemma for each constructor. -/

namespace Sys2Proof.Laws.SelectsRow

/-- The word of the instruction selects its row. -/
def Statement (i : Instr) : Prop :=
  i.wellFormed = true → selectRow i.space (encode i) = some i.mnemonic

/-- A byte under a full mask is itself. -/
theorem and_full (x : Byte) : x &&& 255#8 = x := BitVec.and_allOnes

theorem cks8 (s : List Byte) : Statement (.cks8 s) := fun _ => rfl
theorem cks16 (s : List Byte) : Statement (.cks16 s) := fun _ => rfl
theorem enc (c : Byte) (pay : List Byte) : Statement (.enc c pay) := fun _ => rfl
theorem dec : Statement .dec := fun _ => rfl

theorem cmd (ll cc : Byte) (pay : List Byte) : Statement (.cmd ll cc pay) := by
  intro h
  simp only [Instr.wellFormed, namedCommand, Bool.and_eq_true, Bool.not_eq_true', Bool.or_eq_false_iff,
    Bool.and_eq_false_iff, beq_eq_false_iff_ne, ne_eq] at h
  obtain ⟨-, hn⟩ := h
  by_cases h1 : ll = 0x01
  · subst h1
    simp at hn
    simp [selectRow, bestRow, opcodeTable, maskedMatch, encode, Instr.space, Instr.mnemonic, and_full, hn]
  · by_cases h2 : ll = 0x02
    · subst h2
      simp at hn
      simp [selectRow, bestRow, opcodeTable, maskedMatch, encode, Instr.space, Instr.mnemonic, and_full, hn]
    · have h1' : ¬ll = 1#8 := h1
      have h2' : ¬ll = 2#8 := h2
      simp [selectRow, bestRow, opcodeTable, maskedMatch, encode, Instr.space, Instr.mnemonic, and_full, h1', h2']

theorem startMeas : Statement .startMeas := fun _ => rfl
theorem stopMeas : Statement .stopMeas := fun _ => rfl
theorem readSample : Statement .readSample := fun _ => rfl
theorem setCoef (c : Byte) : Statement (.setCoef c) := fun _ => rfl
theorem readCoef : Statement .readCoef := fun _ => rfl
theorem autosendOff : Statement .autosendOff := fun _ => rfl
theorem autosendOn : Statement .autosendOn := fun _ => rfl
theorem ack : Statement .ack := fun _ => rfl
theorem nak : Statement .nak := fun _ => rfl

theorem cdata (ll : Byte) : Statement (.cdata ll) := by
  intro _
  simp [selectRow, bestRow, opcodeTable, maskedMatch, encode, Instr.space, Instr.mnemonic]

theorem sdata : Statement .sdata := fun _ => rfl

theorem malformed (h0 h1 : Byte) : Statement (.malformed h0 h1) := by
  intro h
  simp only [Instr.wellFormed, legalHeader, Config.hdrAck, Config.hdrNak, Config.hdrCdata, Config.hdrSdata0,
    Config.hdrSdata1, Bool.not_eq_true', Bool.or_eq_false_iff, Bool.and_eq_false_iff, beq_eq_false_iff_ne, ne_eq] at h
  obtain ⟨⟨⟨ha, hk⟩, hc⟩, hs⟩ := h
  have ha' : ¬(h0 = 0xA5#8 ∧ h1 = 0xA5#8) := by tauto
  have hk' : ¬(h0 = 0x96#8 ∧ h1 = 0x96#8) := by tauto
  have hs' : ¬(h0 = 0x42#8 ∧ h1 = 0x4D#8) := by tauto
  have hc' : ¬(h0 = 0x40#8) := hc
  simp [selectRow, bestRow, opcodeTable, maskedMatch, encode, Instr.space, Instr.mnemonic, and_full, ha', hk', hs', hc']

end Sys2Proof.Laws.SelectsRow
end

