-- ==== Sys2Proof/Laws/State.lean ====
section
/-! SUPPORT. What each named update of the state does to each field, by definition. -/

namespace Sys2Proof.Machine

variable (s : State)

/-! ### emit -/

@[simp] theorem State.emit_tx (e : Event) : (State.emit e s).tx = s.tx := rfl
@[simp] theorem State.emit_rx (e : Event) : (State.emit e s).rx = s.rx := rfl
@[simp] theorem State.emit_rxq (e : Event) : (State.emit e s).rxq = s.rxq := rfl
@[simp] theorem State.emit_txs (e : Event) : (State.emit e s).txs = s.txs := rfl
@[simp] theorem State.emit_txTaken (e : Event) : (State.emit e s).txTaken = s.txTaken := rfl
@[simp] theorem State.emit_trace (e : Event) : (State.emit e s).trace = s.trace ++ [e] := rfl
@[simp] theorem State.emit_flushes (e : Event) : (State.emit e s).flushes = s.flushes := rfl
@[simp] theorem State.emit_hostq (e : Event) : (State.emit e s).hostq = s.hostq := rfl
@[simp] theorem State.emit_agenda (e : Event) : (State.emit e s).agenda = s.agenda := rfl
@[simp] theorem State.emit_tick (e : Event) : (State.emit e s).tick = s.tick := rfl

/-! ### txPush -/

@[simp] theorem State.txPush_tx (b : Byte) : (State.txPush b s).tx = s.tx := rfl
@[simp] theorem State.txPush_rx (b : Byte) : (State.txPush b s).rx = s.rx := rfl
@[simp] theorem State.txPush_rxq (b : Byte) : (State.txPush b s).rxq = s.rxq := rfl
@[simp] theorem State.txPush_txs (b : Byte) : (State.txPush b s).txs = s.txs ++ [b] := rfl
@[simp] theorem State.txPush_txTaken (b : Byte) : (State.txPush b s).txTaken = s.txTaken := rfl
@[simp] theorem State.txPush_trace (b : Byte) : (State.txPush b s).trace = s.trace := rfl
@[simp] theorem State.txPush_flushes (b : Byte) : (State.txPush b s).flushes = s.flushes := rfl
@[simp] theorem State.txPush_hostq (b : Byte) : (State.txPush b s).hostq = s.hostq := rfl
@[simp] theorem State.txPush_agenda (b : Byte) : (State.txPush b s).agenda = s.agenda := rfl
@[simp] theorem State.txPush_tick (b : Byte) : (State.txPush b s).tick = s.tick := rfl

/-! ### rxFlush -/

@[simp] theorem State.rxFlush_tx : (State.rxFlush s).tx = s.tx := rfl
@[simp] theorem State.rxFlush_rx : (State.rxFlush s).rx = s.rx := rfl
@[simp] theorem State.rxFlush_rxq : (State.rxFlush s).rxq = [] := rfl
@[simp] theorem State.rxFlush_txs : (State.rxFlush s).txs = s.txs := rfl
@[simp] theorem State.rxFlush_txTaken : (State.rxFlush s).txTaken = s.txTaken := rfl
@[simp] theorem State.rxFlush_trace : (State.rxFlush s).trace = s.trace := rfl
@[simp] theorem State.rxFlush_flushes : (State.rxFlush s).flushes = s.flushes + 1 := rfl
@[simp] theorem State.rxFlush_hostq : (State.rxFlush s).hostq = s.hostq := rfl
@[simp] theorem State.rxFlush_agenda : (State.rxFlush s).agenda = s.agenda := rfl
@[simp] theorem State.rxFlush_tick : (State.rxFlush s).tick = s.tick := rfl

/-! ### sendCovered -/

@[simp] theorem State.sendCovered_tx (b : Byte) (n : TxSt) : (State.sendCovered b n s).tx = { s.tx with acc := accAdd s.tx.acc b, st := n } := rfl
@[simp] theorem State.sendCovered_rx (b : Byte) (n : TxSt) : (State.sendCovered b n s).rx = s.rx := rfl
@[simp] theorem State.sendCovered_rxq (b : Byte) (n : TxSt) : (State.sendCovered b n s).rxq = s.rxq := rfl
@[simp] theorem State.sendCovered_txs (b : Byte) (n : TxSt) : (State.sendCovered b n s).txs = s.txs ++ [b] := rfl
@[simp] theorem State.sendCovered_txTaken (b : Byte) (n : TxSt) : (State.sendCovered b n s).txTaken = s.txTaken := rfl
@[simp] theorem State.sendCovered_trace (b : Byte) (n : TxSt) : (State.sendCovered b n s).trace = s.trace := rfl
@[simp] theorem State.sendCovered_flushes (b : Byte) (n : TxSt) : (State.sendCovered b n s).flushes = s.flushes := rfl
@[simp] theorem State.sendCovered_hostq (b : Byte) (n : TxSt) : (State.sendCovered b n s).hostq = s.hostq := rfl
@[simp] theorem State.sendCovered_agenda (b : Byte) (n : TxSt) : (State.sendCovered b n s).agenda = s.agenda := rfl
@[simp] theorem State.sendCovered_tick (b : Byte) (n : TxSt) : (State.sendCovered b n s).tick = s.tick := rfl

/-! ### latchCommand -/

@[simp] theorem State.latchCommand_tx (c : Byte) (p : List Byte) : (State.latchCommand c p s).tx = { st := .hdr, cmd := c, plen := BitVec.ofNat 8 p.length, pay := Memory.writeFrom s.tx.pay 0 p, idx := 0, acc := 0 } := rfl
@[simp] theorem State.latchCommand_rx (c : Byte) (p : List Byte) : (State.latchCommand c p s).rx = s.rx := rfl
@[simp] theorem State.latchCommand_rxq (c : Byte) (p : List Byte) : (State.latchCommand c p s).rxq = s.rxq := rfl
@[simp] theorem State.latchCommand_txs (c : Byte) (p : List Byte) : (State.latchCommand c p s).txs = s.txs := rfl
@[simp] theorem State.latchCommand_txTaken (c : Byte) (p : List Byte) : (State.latchCommand c p s).txTaken = s.txTaken := rfl
@[simp] theorem State.latchCommand_trace (c : Byte) (p : List Byte) : (State.latchCommand c p s).trace = s.trace := rfl
@[simp] theorem State.latchCommand_flushes (c : Byte) (p : List Byte) : (State.latchCommand c p s).flushes = s.flushes := rfl
@[simp] theorem State.latchCommand_hostq (c : Byte) (p : List Byte) : (State.latchCommand c p s).hostq = s.hostq := rfl
@[simp] theorem State.latchCommand_agenda (c : Byte) (p : List Byte) : (State.latchCommand c p s).agenda = s.agenda := rfl
@[simp] theorem State.latchCommand_tick (c : Byte) (p : List Byte) : (State.latchCommand c p s).tick = s.tick := rfl

/-! ### startDecode -/

@[simp] theorem State.startDecode_tx : (State.startDecode s).tx = s.tx := rfl
@[simp] theorem State.startDecode_rx : (State.startDecode s).rx = { s.rx with st := .h0, len := 0, acc := 0, rem := 0, drop := 0 } := rfl
@[simp] theorem State.startDecode_rxq : (State.startDecode s).rxq = s.rxq := rfl
@[simp] theorem State.startDecode_txs : (State.startDecode s).txs = s.txs := rfl
@[simp] theorem State.startDecode_txTaken : (State.startDecode s).txTaken = s.txTaken := rfl
@[simp] theorem State.startDecode_trace : (State.startDecode s).trace = s.trace := rfl
@[simp] theorem State.startDecode_flushes : (State.startDecode s).flushes = s.flushes := rfl
@[simp] theorem State.startDecode_hostq : (State.startDecode s).hostq = s.hostq := rfl
@[simp] theorem State.startDecode_agenda : (State.startDecode s).agenda = s.agenda := rfl
@[simp] theorem State.startDecode_tick : (State.startDecode s).tick = s.tick := rfl

/-! ### deliverData -/

@[simp] theorem State.deliverData_tx (p : List Byte) : (State.deliverData p s).tx = s.tx := rfl
@[simp] theorem State.deliverData_rx (p : List Byte) : (State.deliverData p s).rx = { s.rx with len := 0, st := .idle } := rfl
@[simp] theorem State.deliverData_rxq (p : List Byte) : (State.deliverData p s).rxq = s.rxq := rfl
@[simp] theorem State.deliverData_txs (p : List Byte) : (State.deliverData p s).txs = s.txs := rfl
@[simp] theorem State.deliverData_txTaken (p : List Byte) : (State.deliverData p s).txTaken = s.txTaken := rfl
@[simp] theorem State.deliverData_trace (p : List Byte) : (State.deliverData p s).trace = s.trace ++ [.resp .data p] := rfl
@[simp] theorem State.deliverData_flushes (p : List Byte) : (State.deliverData p s).flushes = s.flushes := rfl
@[simp] theorem State.deliverData_hostq (p : List Byte) : (State.deliverData p s).hostq = s.hostq := rfl
@[simp] theorem State.deliverData_agenda (p : List Byte) : (State.deliverData p s).agenda = s.agenda := rfl
@[simp] theorem State.deliverData_tick (p : List Byte) : (State.deliverData p s).tick = s.tick := rfl

/-! ### deliverAck -/

@[simp] theorem State.deliverAck_tx (k : Kind) : (State.deliverAck k s).tx = s.tx := rfl
@[simp] theorem State.deliverAck_rx (k : Kind) : (State.deliverAck k s).rx = { s.rx with st := .idle } := rfl
@[simp] theorem State.deliverAck_rxq (k : Kind) : (State.deliverAck k s).rxq = s.rxq := rfl
@[simp] theorem State.deliverAck_txs (k : Kind) : (State.deliverAck k s).txs = s.txs := rfl
@[simp] theorem State.deliverAck_txTaken (k : Kind) : (State.deliverAck k s).txTaken = s.txTaken := rfl
@[simp] theorem State.deliverAck_trace (k : Kind) : (State.deliverAck k s).trace = s.trace ++ [.resp k []] := rfl
@[simp] theorem State.deliverAck_flushes (k : Kind) : (State.deliverAck k s).flushes = s.flushes := rfl
@[simp] theorem State.deliverAck_hostq (k : Kind) : (State.deliverAck k s).hostq = s.hostq := rfl
@[simp] theorem State.deliverAck_agenda (k : Kind) : (State.deliverAck k s).agenda = s.agenda := rfl
@[simp] theorem State.deliverAck_tick (k : Kind) : (State.deliverAck k s).tick = s.tick := rfl

/-! ### raise -/

@[simp] theorem State.raise_tx (c : ErrCode) : (State.raise c s).tx = s.tx := rfl
@[simp] theorem State.raise_rx (c : ErrCode) : (State.raise c s).rx = { s.rx with len := 0, st := .idle } := rfl
@[simp] theorem State.raise_rxq (c : ErrCode) : (State.raise c s).rxq = s.rxq := rfl
@[simp] theorem State.raise_txs (c : ErrCode) : (State.raise c s).txs = s.txs := rfl
@[simp] theorem State.raise_txTaken (c : ErrCode) : (State.raise c s).txTaken = s.txTaken := rfl
@[simp] theorem State.raise_trace (c : ErrCode) : (State.raise c s).trace = s.trace ++ [.err c] := rfl
@[simp] theorem State.raise_flushes (c : ErrCode) : (State.raise c s).flushes = s.flushes := rfl
@[simp] theorem State.raise_hostq (c : ErrCode) : (State.raise c s).hostq = s.hostq := rfl
@[simp] theorem State.raise_agenda (c : ErrCode) : (State.raise c s).agenda = s.agenda := rfl
@[simp] theorem State.raise_tick (c : ErrCode) : (State.raise c s).tick = s.tick := rfl

/-! ### resetBlock -/

@[simp] theorem State.resetBlock_tx : (State.resetBlock s).tx = TxUnit.reset := rfl
@[simp] theorem State.resetBlock_rx : (State.resetBlock s).rx = RxUnit.reset := rfl
@[simp] theorem State.resetBlock_rxq : (State.resetBlock s).rxq = s.rxq := rfl
@[simp] theorem State.resetBlock_txs : (State.resetBlock s).txs = s.txs := rfl
@[simp] theorem State.resetBlock_txTaken : (State.resetBlock s).txTaken = s.txTaken := rfl
@[simp] theorem State.resetBlock_trace : (State.resetBlock s).trace = s.trace := rfl
@[simp] theorem State.resetBlock_flushes : (State.resetBlock s).flushes = s.flushes := rfl
@[simp] theorem State.resetBlock_hostq : (State.resetBlock s).hostq = s.hostq := rfl
@[simp] theorem State.resetBlock_agenda : (State.resetBlock s).agenda = s.agenda := rfl
@[simp] theorem State.resetBlock_tick : (State.resetBlock s).tick = s.tick := rfl

end Sys2Proof.Machine
end

