-- ==== Sys2Proof/Laws/Turns.lean ====
section
/-! SUPPORT. What each shared operation and each agent's turn can do, said once: if it answers a next state, then
one of the listed cases holds. Later proofs cite these and do not unfold the turns. -/

namespace Sys2Proof.Machine

variable {s t : State}

@[simp] theorem State.quiescent_iff : s.quiescent = true ↔ s.tx.st = .idle ∧ s.rx.st = .idle := by
  simp [State.quiescent]

/-! ## Host requests -/

/-- A request for a frame is accepted or refused (R141, R149). -/
theorem requestFrame_cases (c : Byte) (p : List Byte) (s : State) :
    (s.quiescent = true ∧ p.length ≤ Config.txPayloadMax ∧ s.requestFrame c p = s.latchCommand c p) ∨
    (¬ (s.quiescent = true ∧ p.length ≤ Config.txPayloadMax) ∧ s.requestFrame c p = s.emit (.refused .enc)) := by
  rw [State.requestFrame]
  split_ifs with h
  · exact .inl ⟨h.1, h.2, rfl⟩
  · exact .inr ⟨h, rfl⟩

theorem requestFrame_accepted (c : Byte) (p : List Byte) (h : s.quiescent = true)
    (hp : p.length ≤ Config.txPayloadMax) : s.requestFrame c p = s.latchCommand c p := by
  rw [State.requestFrame, if_pos ⟨h, hp⟩]

theorem requestFrame_refused (c : Byte) (p : List Byte)
    (h : ¬ (s.quiescent = true ∧ p.length ≤ Config.txPayloadMax)) : s.requestFrame c p = s.emit (.refused .enc) := by
  rw [State.requestFrame, if_neg h]

/-- Everything a host request can do: emit one event, accept a frame, or accept a decode. -/
theorem exec_request_cases (i : Instr) (hi : i.space ≠ .received) (s : State) :
    (∃ e, exec i s = .next (s.emit e)) ∨
    (∃ c p, s.quiescent = true ∧ p.length ≤ Config.txPayloadMax ∧ exec i s = .next (s.latchCommand c p)) ∨
    (s.quiescent = true ∧ exec i s = .next s.startDecode) := by
  have frameCase : ∀ c p, exec i s = .next (s.requestFrame c p) →
      (∃ e, exec i s = .next (s.emit e)) ∨
      (∃ c p, s.quiescent = true ∧ p.length ≤ Config.txPayloadMax ∧ exec i s = .next (s.latchCommand c p)) ∨
      (s.quiescent = true ∧ exec i s = .next s.startDecode) := by
    intro c p h
    obtain ⟨hq, hp, e⟩ | ⟨-, e⟩ := requestFrame_cases c p s
    · exact .inr (.inl ⟨c, p, hq, hp, by rw [h, e]⟩)
    · exact .inl ⟨_, by rw [h, e]⟩
  cases i with
  | cks8 b => exact .inl ⟨_, rfl⟩
  | cks16 b => exact .inl ⟨_, rfl⟩
  | enc c p => exact frameCase c p rfl
  | dec =>
    cases hq : s.quiescent
    · exact .inl ⟨_, by simp [exec, execDec, hq]; rfl⟩
    · exact .inr (.inr ⟨rfl, by simp [exec, execDec, hq]⟩)
  | cmd ll cc p => exact frameCase cc p rfl
  | startMeas => exact frameCase 0x01 [] rfl
  | stopMeas => exact frameCase 0x02 [] rfl
  | readSample => exact frameCase 0x04 [] rfl
  | setCoef c => exact frameCase 0x08 [c] rfl
  | readCoef => exact frameCase 0x10 [] rfl
  | autosendOff => exact frameCase 0x20 [] rfl
  | autosendOn => exact frameCase 0x40 [] rfl
  | ack => exact absurd rfl hi
  | nak => exact absurd rfl hi
  | cdata _ => exact absurd rfl hi
  | sdata => exact absurd rfl hi
  | malformed _ _ => exact absurd rfl hi

/-- A decoded word is an instruction of the space it was decoded in. -/
theorem space_of_decode {sp : Space} {bytes : List Byte} {i : Instr} (h : decode sp bytes = .ok i) : i.space = sp := by
  cases sp with
  | hostop =>
    match bytes with
    | [] => simp [decode, decodeHostop] at h
    | o :: args =>
      simp only [decode, decodeHostop] at h
      split_ifs at h
      · cases h; rfl
      · cases h; rfl
      · cases args <;> simp at h; subst h; rfl
      · cases args <;> simp at h; subst h; rfl
  | command =>
    match bytes with
    | [] => simp [decode, decodeCommand] at h
    | [_] => simp [decode, decodeCommand] at h
    | [_, _] => simp [decode, decodeCommand] at h
    | a :: ll :: cc :: pay =>
      simp only [decode, decodeCommand] at h
      split_ifs at h
      cases h
      simp only [commandRow]
      split_ifs <;> first | rfl | (cases pay <;> rfl)
  | received =>
    match bytes with
    | [] => simp [decode] at h
    | [_] => simp [decode] at h
    | [a, b] =>
      simp only [decode] at h
      cases h
      simp only [decodeHeader]
      split_ifs <;> rfl
    | _ :: _ :: _ :: _ => simp [decode] at h

/-- Everything a turn of HOST's front act can do. -/
theorem hostAct_cases (a : HostAct) (s w : State) :
    (∃ why, hostAct a s w = .refused (.badRequest why)) ∨
    (∃ e, hostAct a s w = .next (s.emit e)) ∨
    (∃ c p, s.quiescent = true ∧ p.length ≤ Config.txPayloadMax ∧ hostAct a s w = .next (s.latchCommand c p)) ∨
    (s.quiescent = true ∧ hostAct a s w = .next s.startDecode) ∨
    (a = .flush ∧ s.quiescent = true ∧ hostAct a s w = .next { s with rxq := [] }) ∨
    hostAct a s w = .next s ∨ hostAct a s w = .next w := by
  have req : ∀ sp bytes, sp ≠ .received → hostAct a s w = runRequest (decode sp bytes) s →
      (∃ why, hostAct a s w = .refused (.badRequest why)) ∨
      (∃ e, hostAct a s w = .next (s.emit e)) ∨
      (∃ c p, s.quiescent = true ∧ p.length ≤ Config.txPayloadMax ∧ hostAct a s w = .next (s.latchCommand c p)) ∨
      (s.quiescent = true ∧ hostAct a s w = .next s.startDecode) := by
    intro sp bytes hsp h
    rw [h]
    cases hd : decode sp bytes with
    | error e => exact .inl ⟨e, rfl⟩
    | ok i => exact .inr (exec_request_cases i (by rw [space_of_decode hd]; exact hsp) s)
  cases a with
  | op bytes =>
    obtain h | h | h | h := req .hostop bytes (by decide) rfl
    · exact .inl h
    · exact .inr (.inl h)
    · exact .inr (.inr (.inl h))
    · exact .inr (.inr (.inr (.inl h)))
  | frame bytes =>
    obtain h | h | h | h := req .command bytes (by decide) rfl
    · exact .inl h
    · exact .inr (.inl h)
    · exact .inr (.inr (.inl h))
    · exact .inr (.inr (.inr (.inl h)))
  | await =>
    simp only [hostAct]
    split_ifs <;> simp
  | flush =>
    cases hq : s.quiescent
    · simp [hostAct, hq]
    · simp [hostAct, hq]
  | settle => simp [hostAct]

/-! ## Transmit unit -/

/-- Everything a turn of TXU can do (R142 to R146). -/
theorem txuTurn_cases (h : txuTurn s = .next t) :
    (s.tx.st = .idle ∧ t = s) ∨
    (s.tx.st = .hdr ∧ t = s.sendCovered Config.hdrCmd .len) ∨
    (s.tx.st = .len ∧ s.tx.plen ≠ 255 ∧ t = s.sendCovered (lengthByte s.tx.plen) .cmd) ∨
    (s.tx.st = .cmd ∧ t = s.sendCovered s.tx.cmd (if s.tx.plen = 0 then .cks else .pay)) ∨
    (s.tx.st = .pay ∧ s.tx.idx.toNat < s.tx.plen.toNat ∧ s.tx.idx.toNat < Config.bufferSize ∧
      t = { s with
        txs := s.txs ++ [Memory.read s.tx.pay s.tx.idx.toNat],
        tx := { s.tx with
          acc := accAdd s.tx.acc (Memory.read s.tx.pay s.tx.idx.toNat),
          st := if s.tx.idx + 1 = s.tx.plen then .cks else .pay,
          idx := s.tx.idx + 1 } }) ∨
    (s.tx.st = .cks ∧ t = { s with
        txs := s.txs ++ [closingByte s.tx.acc],
        trace := s.trace ++ [.txdone],
        tx := { s.tx with st := .idle } }) := by
  rw [txuTurn] at h
  split at h <;> rename_i hst
  · cases h; exact .inl ⟨hst, rfl⟩
  · cases h; exact .inr (.inl ⟨hst, rfl⟩)
  · rw [stepTLen] at h
    split_ifs at h with h1
    cases h; exact .inr (.inr (.inl ⟨hst, h1, rfl⟩))
  · cases h; exact .inr (.inr (.inr (.inl ⟨hst, rfl⟩)))
  · by_cases h1 : s.tx.idx.toNat < s.tx.plen.toNat ∧ s.tx.idx.toNat < Config.bufferSize
    case neg => rw [stepTPay, if_neg h1] at h; cases h
    rw [stepTPay, if_pos h1] at h
    cases h; exact .inr (.inr (.inr (.inr (.inl ⟨hst, h1.1, h1.2, rfl⟩))))
  · cases h; exact .inr (.inr (.inr (.inr (.inr ⟨hst, rfl⟩))))

/-! ## Receive unit -/

/-- Everything a payload or body byte can do (R178, R180). -/
theorem takeBodyByte_cases {b : Byte} {after : RxSt} (h : takeBodyByte b after s = .next t) :
    s.rx.rem ≠ 0 ∧
    ((s.rx.drop ≠ 0 ∧ t = { s with rx := { s.rx with
        acc := accAdd s.rx.acc b, rem := s.rx.rem - 1, drop := s.rx.drop - 1,
        st := if s.rx.rem = 1 then after else s.rx.st } }) ∨
     (s.rx.drop = 0 ∧ s.rx.len.toNat < Config.rxPayloadMax ∧ t = { s with rx := { s.rx with
        acc := accAdd s.rx.acc b, rem := s.rx.rem - 1,
        buf := Memory.write s.rx.buf s.rx.len.toNat b, len := s.rx.len + 1,
        st := if s.rx.rem = 1 then after else s.rx.st } })) := by
  by_cases h1 : s.rx.rem = 0
  · rw [takeBodyByte, if_pos h1] at h; cases h
  rw [takeBodyByte, if_neg h1] at h
  dsimp only at h
  refine ⟨h1, ?_⟩
  by_cases h2 : s.rx.drop ≠ 0
  · rw [if_pos h2] at h; cases h; exact .inl ⟨h2, rfl⟩
  rw [if_neg h2] at h
  by_cases h3 : s.rx.len.toNat < Config.rxPayloadMax
  · rw [if_pos h3] at h; cases h; exact .inr ⟨not_not.mp h2, h3, rfl⟩
  · rw [if_neg h3] at h; cases h

/-- A received row runs in R_H1 only. -/
theorem atSecondHeaderByte_eq (h : s.rx.st = .h1) : atSecondHeaderByte s t = .next t := by
  rw [atSecondHeaderByte, if_pos h]

/-- Everything step R_H1 can do (R172 to R177). -/
theorem stepRH1_cases (b : Byte) (s : State) (h : s.rx.st = .h1) :
    (s.rx.h0 = 0xA5 ∧ b = 0xA5 ∧ stepRH1 b s = .next (s.deliverAck .posack)) ∨
    (s.rx.h0 = 0x96 ∧ b = 0x96 ∧ stepRH1 b s = .next (s.deliverAck .negack)) ∨
    (s.rx.h0 = 0x40 ∧ stepRH1 b s = .next { s with rx := { s.rx with
        acc := accAdd 0x40 b, rem := b, drop := 1, st := if b = 0 then .ccks else .cpay } }) ∨
    (s.rx.h0 = 0x42 ∧ b = 0x4D ∧ stepRH1 b s = .next { s with rx := { s.rx with
        acc := 0x8F, rem := 28, drop := 2, st := .sbody } }) ∨
    (legalHeader s.rx.h0 b = false ∧ stepRH1 b s = .next (s.rxFlush.raise .malformed)) := by
  have run : ∀ {i : Instr} {t' : State}, decodeHeader s.rx.h0 b = i → exec i s = atSecondHeaderByte s t' →
      stepRH1 b s = .next t' := by
    intro i t' hd he
    rw [stepRH1, hd, he, atSecondHeaderByte_eq h]
  by_cases h1 : s.rx.h0 = 0xA5 ∧ b = 0xA5
  · exact .inl ⟨h1.1, h1.2, run (i := .ack) (by rw [h1.1, h1.2]; decide) rfl⟩
  by_cases h2 : s.rx.h0 = 0x96 ∧ b = 0x96
  · exact .inr (.inl ⟨h2.1, h2.2, run (i := .nak) (by rw [h2.1, h2.2]; decide) rfl⟩)
  by_cases h3 : s.rx.h0 = 0x40
  · refine .inr (.inr (.inl ⟨h3, run (i := .cdata b) ?_ rfl⟩))
    rw [h3]; simp [decodeHeader, Config.hdrAck, Config.hdrNak, Config.hdrCdata]
  by_cases h4 : s.rx.h0 = 0x42 ∧ b = 0x4D
  · exact .inr (.inr (.inr (.inl ⟨h4.1, h4.2, run (i := .sdata) (by rw [h4.1, h4.2]; decide) rfl⟩)))
  · refine .inr (.inr (.inr (.inr ⟨?_, run (i := .malformed s.rx.h0 b) ?_ rfl⟩)))
    · simp only [legalHeader, Config.hdrAck, Config.hdrNak, Config.hdrCdata, Config.hdrSdata0, Config.hdrSdata1,
        Bool.or_eq_false_iff, Bool.and_eq_false_iff, beq_eq_false_iff_ne, ne_eq]
      tauto
    · rw [decodeHeader, if_neg (show ¬(_ = Config.hdrAck ∧ _ = Config.hdrAck) from h1),
        if_neg (show ¬(_ = Config.hdrNak ∧ _ = Config.hdrNak) from h2), if_neg (show ¬(_ = Config.hdrCdata) from h3),
        if_neg (show ¬(_ = Config.hdrSdata0 ∧ _ = Config.hdrSdata1) from h4)]

/-- Everything a turn of RXU can do: pass, or pop one byte in a state that is not R_IDLE. -/
theorem rxuTurn_cases (h : rxuTurn s = .next t) :
    ((s.rxq = [] ∨ s.rx.st = .idle) ∧ t = s) ∨
    (∃ b q, s.rxq = b :: q ∧ s.rx.st ≠ .idle ∧ rxuByte b { s with rxq := q } = .next t) := by
  rw [rxuTurn] at h
  split at h <;> rename_i hq
  · cases h; exact .inl ⟨.inl hq, rfl⟩
  · rename_i b q
    by_cases hi : s.rx.st = .idle
    · refine .inl ⟨.inr hi, ?_⟩
      simp only [rxuByte, hi] at h
      cases h
      obtain ⟨⟩ := s
      simp_all
    · exact .inr ⟨b, q, hq, hi, h⟩

/-- The timeout is taken by a decode in progress that finds RXQ empty, and by nothing else (R183). -/
theorem timeoutTurn_cases (s : State) :
    (s.rx.st ≠ .idle ∧ s.rxq = [] ∧ timeoutTurn s = .next (s.raise .timeout)) ∨
    ((s.rx.st = .idle ∨ s.rxq ≠ []) ∧ timeoutTurn s = .next s) := by
  rw [timeoutTurn]
  split_ifs with h
  · exact .inl ⟨h.1, h.2, rfl⟩
  · exact .inr ⟨by tauto, rfl⟩

/-! ## The schedule and the step -/

/-- The choice of the mover changes only the agenda and the free-value counter. -/
theorem schedule_frame (s : State) : ∃ ag k, (schedule s).2 = { s with agenda := ag, tick := k } := by
  rw [schedule]
  split
  · exact ⟨_, s.tick, rfl⟩
  · rename_i h; exact ⟨[], s.tick + 1, by simp [← h]⟩

@[simp] theorem schedule_cons {m : Move} {ag : List Move} (h : s.agenda = m :: ag) :
    schedule s = (m, { s with agenda := ag }) := by
  rw [schedule, h]

/-- A step with a mover on the agenda is that mover's turn. -/
theorem step_cons {m : Move} {ag : List Move} (h : s.agenda = m :: ag) :
    step s = takeTurn m { s with agenda := ag } := by
  rw [step, schedule_cons h]

/-- What HOST does next changes only its program and the free-value counter. -/
theorem nextAct_frame (s : State) : ∃ hq k, (nextAct s).2 = { s with hostq := hq, tick := k } := by
  rw [nextAct]
  split
  · exact ⟨_, s.tick, rfl⟩
  · rename_i h; exact ⟨[], s.tick + 1, by simp [← h]⟩

@[simp] theorem nextAct_cons {a : HostAct} {hq : List HostAct} (h : s.hostq = a :: hq) :
    nextAct s = (a, { s with hostq := hq }) := by
  rw [nextAct, h]

end Sys2Proof.Machine
end

