-- ==== Sys2Proof/Laws/Steps.lean ====
section
/-! SUPPORT. A step that answers a next state, split by who moved, with everything that agent can have done. Later
proofs about every step cite these and do not unfold the turns. -/

namespace Sys2Proof.Machine

open Sys2Proof.Safety

theorem accAdd_ofNat (a : Word16) (b : Byte) : accAdd a b = BitVec.ofNat 16 (a.toNat + b.toNat) := by
  apply BitVec.eq_of_toNat_eq; simp

theorem byte_ne_zero {b : Byte} : b ≠ 0 ↔ 1 ≤ b.toNat := by
  rw [ne_eq, ← BitVec.toNat_inj]; simp; omega

/-- Who moved, and what was done. -/
theorem takeTurn_cases {m : Move} {s t : State} (h : takeTurn m s = .next t) :
    (m = .host ∧ hostTurn s = .next t) ∨ (m = .txu ∧ txuTurn s = .next t) ∨ (m = .rxu ∧ rxuTurn s = .next t) ∨
    (∃ b, m = .envByte b ∧ t = { s with rxq := s.rxq ++ [b] }) ∨ (m = .envTimeout ∧ timeoutTurn s = .next t) ∨
    (m = .envTake ∧ t = if s.txTaken < s.txs.length then { s with txTaken := s.txTaken + 1 } else s) ∨
    (∃ k, m = .envDrop k ∧ t = if Config.rxqLossy then { s with rxq := s.rxq.eraseIdx k } else s) ∨
    (m = .reset ∧ t = s.resetBlock) := by
  cases m <;> simp only [takeTurn, Host.Outcome.next.injEq] at h <;> simp [h]

theorem hostTurn_cons {s : State} {a : HostAct} {r : List HostAct} (h : s.hostq = a :: r) :
    hostTurn s = hostAct a { s with hostq := r } s := by
  rw [hostTurn, nextAct_cons h]

/-- Everything a turn of HOST can do; RXQ is emptied only where HOST's act is a flush (R69). -/
theorem hostTurn_next {s t : State} (h : hostTurn s = .next t) : ∃ hq k,
    (∃ e, t = { s with hostq := hq, tick := k, trace := s.trace ++ [e] }) ∨
    (∃ c p, s.quiescent = true ∧ p.length ≤ Config.txPayloadMax ∧ t = { s.latchCommand c p with hostq := hq, tick := k }) ∨
    (s.quiescent = true ∧ t = { s.startDecode with hostq := hq, tick := k }) ∨
    ((nextAct s).1 = .flush ∧ s.quiescent = true ∧ t = { s with rxq := [], hostq := hq, tick := k }) ∨
    t = { s with hostq := hq, tick := k } := by
  obtain ⟨hq, k, e⟩ := nextAct_frame s
  rw [hostTurn, e] at h
  rcases hostAct_cases (nextAct s).1 { s with hostq := hq, tick := k } { s with tick := k } with
    ⟨_, x⟩ | ⟨ev, x⟩ | ⟨c, p, q, l, x⟩ | ⟨q, x⟩ | ⟨hf, q, x⟩ | x | x <;> cases h.symm.trans x
  · exact ⟨hq, k, .inl ⟨ev, rfl⟩⟩
  · exact ⟨hq, k, .inr (.inl ⟨c, p, q, l, rfl⟩)⟩
  · exact ⟨hq, k, .inr (.inr (.inl ⟨q, rfl⟩))⟩
  · exact ⟨hq, k, .inr (.inr (.inr (.inl ⟨hf, q, rfl⟩)))⟩
  · exact ⟨hq, k, .inr (.inr (.inr (.inr rfl)))⟩
  · exact ⟨s.hostq, k, .inr (.inr (.inr (.inr rfl)))⟩

/-- Everything a byte popped by RXU can do (R171 to R182), by the rows of R185. -/
theorem rxuByte_next {b : Byte} {s t : State} (h : rxuByte b s = .next t) (hi : s.rx.st ≠ .idle) :
    ∃ es fl, RxRow s.rx b t.rx.st es fl ∧ t = { s with
      rx := t.rx
      trace := s.trace ++ es
      rxq := (if fl = true then [] else s.rxq)
      flushes := s.flushes + (if fl = true then 1 else 0) } := by
  rw [rxuByte] at h
  have rem1 : ∀ (r : Byte), r ≠ 0 → r ≠ 1 → 2 ≤ r.toNat := by
    intro r h0 h1
    have : r.toNat ≠ 0 := fun e => h0 (BitVec.eq_of_toNat_eq e)
    have : r.toNat ≠ 1 := fun e => h1 (BitVec.eq_of_toNat_eq e)
    omega
  split at h <;> rename_i hst
  · exact absurd hst hi
  · cases h; exact ⟨[], false, .first hst, by simp⟩
  · rcases stepRH1_cases b s hst with ⟨a, c, x⟩ | ⟨a, c, x⟩ | ⟨a, x⟩ | ⟨a, c, x⟩ | ⟨a, x⟩ <;> rw [x] at h <;> cases h
    · exact ⟨_, false, .ack hst a c, by simp [State.deliverAck, State.emit]⟩
    · exact ⟨_, false, .nak hst a c, by simp [State.deliverAck, State.emit]⟩
    · refine ⟨[], false, ?_, by simp⟩
      dsimp only
      split_ifs with hb
      · exact .cdataEmpty hst a hb
      · refine .cdata hst a ?_
        have : b.toNat ≠ 0 := fun e => hb (BitVec.eq_of_toNat_eq e)
        omega
    · exact ⟨[], false, .sdata hst a c, by simp⟩
    · exact ⟨_, true, .malformed hst a, by simp [State.raise, State.emit, State.rxFlush]⟩
  · obtain ⟨h0, ⟨_, rfl⟩ | ⟨_, _, rfl⟩⟩ := takeBodyByte_cases h
    all_goals
      refine ⟨[], false, ?_, by simp⟩
      dsimp only
      split_ifs with hb
      · exact .payloadLast hst hb
      · rw [hst]; exact .payload hst (rem1 _ h0 hb)
  · rw [stepRCcks] at h
    split_ifs at h with h1 h2
    · cases h; exact ⟨_, false, .cdataGood hst (by simpa [sumCloses] using h1), by simp [State.deliverData, State.emit]⟩
    · cases h; exact ⟨_, false, .cdataBad hst (by simpa [sumCloses] using h1), by simp [State.raise, State.emit]⟩
  · obtain ⟨h0, ⟨_, rfl⟩ | ⟨_, _, rfl⟩⟩ := takeBodyByte_cases h
    all_goals
      refine ⟨[], false, ?_, by simp⟩
      dsimp only
      split_ifs with hb
      · exact .bodyLast hst hb
      · rw [hst]; exact .body hst (rem1 _ h0 hb)
  · cases h; exact ⟨[], false, .high hst, by simp⟩
  · rw [stepRSckl] at h
    have eqv : sumEquals s.rx.acc s.rx.ckh b = true ↔ s.rx.ckh.toNat * 256 + b.toNat = s.rx.acc.toNat := by
      rw [sumEquals, decide_eq_true_eq, ← BitVec.toNat_inj, bigEndian_toNat]
    split_ifs at h with h1
    · cases h; exact ⟨_, false, .sdataGood hst (eqv.1 h1), by simp [State.deliverData, State.emit]; rfl⟩
    · cases h; exact ⟨_, false, .sdataBad hst (fun e => h1 (eqv.2 e)), by simp [State.raise, State.emit]⟩

/-- A step is a turn of the mover from a state in which only the agenda and the free-value counter differ. -/
theorem step_split {s t : State} (h : step s = .next t) : ∃ ag k,
    (schedule s).2 = { s with agenda := ag, tick := k } ∧
    takeTurn (schedule s).1 { s with agenda := ag, tick := k } = .next t := by
  obtain ⟨ag, k, e⟩ := schedule_frame s
  exact ⟨ag, k, e, by rw [← e]; exact h⟩

/-- A step of RXU with a byte queued. -/
theorem step_rxu {s : State} {ag : List Move} {b : Byte} {q : List Byte} (h : s.agenda = .rxu :: ag)
    (hq : s.rxq = b :: q) : step s = rxuByte b { s with agenda := ag, rxq := q } := by
  rw [step_cons h]; show rxuTurn _ = _; rw [rxuTurn]; simp only [hq]

/-- A step of HOST with an act at the front of its program. -/
theorem step_host {s : State} {ag : List Move} {a : HostAct} {hq : List HostAct} (h : s.agenda = .host :: ag)
    (hh : s.hostq = a :: hq) : step s = hostAct a { s with agenda := ag, hostq := hq } { s with agenda := ag } := by
  rw [step_cons h]; exact hostTurn_cons hh

/-- A first step, then the rest of a run. -/
theorem Reaches.cons {n : Nat} {s t u : State} (h : step s = .next t) (r : Reaches n t u) : Reaches (n + 1) s u := by
  simp only [Reaches, Host.Core.run, Sys2Proof.core] at r ⊢
  rw [h]; exact r

end Sys2Proof.Machine
end

