-- ==== Sys2Proof/Tests/Slice0.lean ====
section
/-! SUPPORT. The model's own tests and the witnesses of its statements.

Expected results are the spec's: the encodings of 30_encoding.md, the vectors V1 to V53 of 95_test_vectors.md, or a hand
calculation from the rule named. -/

namespace Sys2Proof.Tests

open Sys2Proof Sys2Proof.Machine Sys2Proof.Safety

/-! ## Small states and outcomes -/

/-- The outcome is a next state with the property. -/
def nextHas (o : Host.Outcome State Fault Refusal) (p : State → Bool) : Bool :=
  match o with
  | .next t => p t
  | .fault _ => false
  | .refused _ => false

/-- The outcome is this fault. -/
def faultIs (o : Host.Outcome State Fault Refusal) (f : Fault) : Bool :=
  match o with
  | .next _ => false
  | .fault g => decide (g = f)
  | .refused _ => false

/-- The outcome is this refusal. -/
def refusalIs (o : Host.Outcome State Fault Refusal) (r : Refusal) : Bool :=
  match o with
  | .next _ => false
  | .fault _ => false
  | .refused q => decide (q = r)

/-- A quiescent block whose HOST is to perform one act, then the agenda. -/
def hostState (a : HostAct) (ag : List Move) : State :=
  { State.reset with hostq := [a], agenda := .host :: ag }

/-- A block that is sending a frame, TXU to move. -/
def txState (st : TxSt) (cmd plen idx : Byte) (acc : Word16) (pay : Memory) : State :=
  { State.reset with
    tx := { st := st, cmd := cmd, plen := plen, pay := pay, idx := idx, acc := acc }, agenda := [.txu] }

/-- A block that is receiving a frame, with one byte queued and RXU to move. -/
def rxState (st : RxSt) (rem : Byte) (drop : BitVec 2) (acc : Word16) (ckh len : Byte) (buf : Memory) (b : Byte) : State :=
  { State.reset with
    rx := { st := st, h0 := 0x40, rem := rem, drop := drop, acc := acc, ckh := ckh, buf := buf, len := len },
    rxq := [b], agenda := [.rxu] }

/-- A block in R_H1 with the first byte of a pair held and the second queued. -/
def pairState (h0 h1 : Byte) : State :=
  { State.reset with rx := { RxUnit.reset with st := .h1, h0 := h0 }, rxq := [h1], agenda := [.rxu] }

/-! ## Every constructor's word, written out from 30_encoding.md (R91 to R94, R101, R103, R108) -/

theorem test_decode_cks8 : decode .hostop [0x00, 0x80, 0x80] = .ok (.cks8 [0x80, 0x80]) := rfl
theorem test_decode_cks16 : decode .hostop [0x01, 0x42, 0x4D] = .ok (.cks16 [0x42, 0x4D]) := rfl
theorem test_decode_enc : decode .hostop [0x02, 0x55, 0x01, 0x02] = .ok (.enc 0x55 [0x01, 0x02]) := rfl
theorem test_decode_dec : decode .hostop [0x03] = .ok .dec := rfl
theorem test_decode_cmd : decode .command [0x68, 0x02, 0x68, 0x68] = .ok (.cmd 0x02 0x68 [0x68]) := rfl
theorem test_decode_start_meas : decode .command [0x68, 0x01, 0x01] = .ok .startMeas := rfl
theorem test_decode_stop_meas : decode .command [0x68, 0x01, 0x02] = .ok .stopMeas := rfl
theorem test_decode_read_sample : decode .command [0x68, 0x01, 0x04] = .ok .readSample := rfl
theorem test_decode_set_coef : decode .command [0x68, 0x02, 0x08, 0xC8] = .ok (.setCoef 0xC8) := rfl
theorem test_decode_read_coef : decode .command [0x68, 0x01, 0x10] = .ok .readCoef := rfl
theorem test_decode_autosend_off : decode .command [0x68, 0x01, 0x20] = .ok .autosendOff := rfl
theorem test_decode_autosend_on : decode .command [0x68, 0x01, 0x40] = .ok .autosendOn := rfl
theorem test_decode_ack : decode .received [0xA5, 0xA5] = .ok .ack := rfl
theorem test_decode_nak : decode .received [0x96, 0x96] = .ok .nak := rfl
theorem test_decode_cdata : decode .received [0x40, 0xA5] = .ok (.cdata 0xA5) := rfl
theorem test_decode_sdata : decode .received [0x42, 0x4D] = .ok .sdata := rfl
theorem test_decode_malformed : decode .received [0x4D, 0x42] = .ok (.malformed 0x4D 0x42) := rfl

/-- The encoder writes the same bytes, operands in their places (R91, R108). -/
theorem test_encode : encode (.setCoef 0x64) = [0x68, 0x02, 0x08, 0x64] ∧ encode (.cdata 0x05) = [0x40, 0x05] ∧
    encode (.enc 0x08 [0x64]) = [0x02, 0x08, 0x64] := by decide

/-- Named codes with another length byte are generic commands (R103, R104, R111). -/
theorem test_decode_near_named : decode .command [0x68, 0x02, 0x01, 0x00] = .ok (.cmd 0x02 0x01 [0x00]) ∧
    decode .command [0x68, 0x01, 0x08] = .ok (.cmd 0x01 0x08 []) := ⟨rfl, rfl⟩

/-- What is no instruction is rejected by name. -/
theorem test_decode_rejects : decode .hostop [] = .error .tooShort ∧ decode .hostop [0x02] = .error .tooShort ∧
    decode .hostop [0x04] = .error .unknownOp ∧ decode .hostop [0x03, 0x00] = .error .unexpectedOperand ∧
    decode .command [0x40, 0x01, 0x01] = .error .notCommandHeader ∧
    decode .command [0x68, 0x01, 0x01, 0x96] = .error .payloadLength ∧ decode .command [0x68, 0x01] = .error .tooShort ∧
    decode .received [0x40] = .error .tooShort ∧ decode .received [0x40, 0x00, 0xC0] = .error .notAHeaderPair :=
  ⟨rfl, rfl, rfl, rfl, rfl, rfl, rfl, rfl, rfl⟩

/-- The table's own numbers (spec/opcode_table.json "match"). -/
theorem test_table_words : decodeTableWord 8 0x03 = some .dec ∧ decodeTableWord 8 0x02 = some (.enc 0 []) ∧
    decodeTableWord 24 0x680110 = some .readCoef ∧ decodeTableWord 24 0x680208 = some (.setCoef 0) ∧
    decodeTableWord 24 0x680000 = some (.cmd 0 0 []) ∧ decodeTableWord 16 0xA5A5 = some .ack ∧
    decodeTableWord 16 0x4000 = some (.cdata 0) ∧ decodeTableWord 16 0x424D = some .sdata ∧
    decodeTableWord 16 0x0000 = some (.malformed 0 0) ∧ decodeTableWord 24 0x400000 = none := by decide

/-! ## WellFormed smoke: an ill-formed term for each check -/

theorem test_wf_refuses_payload_length : (Instr.cmd 0x03 0x55 [0x01]).wellFormed = false := by decide
theorem test_wf_refuses_named_word : (Instr.cmd 0x01 0x04 []).wellFormed = false := by decide
theorem test_wf_refuses_named_set_coef : (Instr.cmd 0x02 0x08 [0x64]).wellFormed = false := by decide
theorem test_wf_refuses_legal_pair : (Instr.malformed 0x40 0x07).wellFormed = false := by decide
theorem test_wf_accepts : (Instr.cmd 0x04 0x55 [0x01, 0x02, 0x03]).wellFormed = true ∧
    (Instr.malformed 0xA5 0x96).wellFormed = true := by decide

/-! ## Fetch: the first step after reset runs the placed word -/

theorem test_fetch_hostop : nextHas (step (State.reset.withFetchWord 8 0x01))
    (fun t => decide (t = { State.reset with trace := [.val16 0] })) = true := by decide
theorem test_fetch_dec : nextHas (step (State.reset.withFetchWord 8 0x03)) (fun t => decide (t.rx.st = .h0)) = true := by
  decide
theorem test_fetch_command : nextHas (step (State.reset.withFetchWord 24 0x680120))
    (fun t => decide (t.tx = { TxUnit.reset with st := .hdr, cmd := 0x20 })) = true := by decide
theorem test_fetch_pair : nextHas (step (State.reset.withFetchWord 16 0x9696))
    (fun t => decide (t.trace = [.resp .negack []] ∧ t.rx.st = .idle ∧ t.rxq = [])) = true := by decide
theorem test_bad_request_is_refused : refusalIs (step (hostState (.op [0x07]) [])) (.badRequest .unknownOp) = true := by
  decide

/-! ## Instructions, one step each -/

/-- V2. -/
theorem test_cks8 : nextHas (exec (.cks8 [0x68, 0x01, 0x04]) State.reset) (fun t => decide (t.trace = [.val8 0x93])) = true := by
  decide
/-- V3: a sum that is a multiple of 256 gives 0. -/
theorem test_cks8_multiple : cks8 [0x80, 0x80] = 0x00 := by decide
/-- V5. -/
theorem test_cks16 : nextHas (exec (.cks16 [0x42, 0x4D]) State.reset) (fun t => decide (t.trace = [.val16 0x008F])) = true := by
  decide
/-- R133: the accumulator wraps at 65536: 65000 + 3 * 255 = 65765, less 65536 is 229; 256 - 229 = 27. -/
theorem test_cks_wrap : accumulate 65000 [0xFF, 0xFF, 0xFF] = 229 ∧ closingByte 229 = 27 := by decide
/-- V18: ENC(0x55, [01 02 03]) is latched (R141), byte by byte in order. -/
theorem test_enc : nextHas (exec (.enc 0x55 [0x01, 0x02, 0x03]) State.reset) (fun t => decide
    (t.tx = { st := .hdr, cmd := 0x55, plen := 3, pay := [(0, 1), (1, 2), (2, 3)], idx := 0, acc := 0 })) = true := by decide
/-- R149: refused while a decode is in progress. -/
theorem test_enc_busy : nextHas (exec (.enc 0x01 []) (pairState 0x40 0x00))
    (fun t => decide (t = { pairState 0x40 0x00 with trace := [.refused .enc] })) = true := by decide
/-- R170: RX_LEN, RX_ACC, RX_REM and RX_DROP are cleared. -/
theorem test_dec : nextHas (exec .dec { State.reset with rx := { RxUnit.reset with rem := 9, drop := 1, acc := 7 } })
    (fun t => decide (t.rx = { RxUnit.reset with st := .h0 })) = true := by decide
/-- V18, V10 to V16, V13a to V13d, V17: the frame function. -/
theorem test_frames : frame 0x55 [0x01, 0x02, 0x03] = [0x68, 0x04, 0x55, 0x01, 0x02, 0x03, 0x39] ∧
    frame 0x68 [0x68] = [0x68, 0x02, 0x68, 0x68, 0xC6] ∧ frame 0x01 [] = [0x68, 0x01, 0x01, 0x96] ∧
    frame 0x02 [] = [0x68, 0x01, 0x02, 0x95] ∧ frame 0x04 [] = [0x68, 0x01, 0x04, 0x93] ∧
    frame 0x10 [] = [0x68, 0x01, 0x10, 0x87] ∧ frame 0x20 [] = [0x68, 0x01, 0x20, 0x77] ∧
    frame 0x40 [] = [0x68, 0x01, 0x40, 0x57] ∧ frame 0x08 [0x64] = [0x68, 0x02, 0x08, 0x64, 0x2A] ∧
    frame 0x08 [0xC8] = [0x68, 0x02, 0x08, 0xC8, 0xC6] ∧ frame 0x08 [0x8E] = [0x68, 0x02, 0x08, 0x8E, 0x00] ∧
    frame 0xFF [] = [0x68, 0x01, 0xFF, 0x98] := by decide
theorem test_cmd : nextHas (exec (.cmd 0x02 0x68 [0x68]) State.reset)
    (fun t => decide (t.tx.cmd = 0x68 ∧ t.tx.plen = 1 ∧ Memory.read t.tx.pay 0 = 0x68)) = true := by decide
theorem test_start_meas : nextHas (exec .startMeas State.reset) (fun t => decide (t.tx.cmd = 0x01 ∧ t.tx.plen = 0)) = true := by
  decide
theorem test_stop_meas : nextHas (exec .stopMeas State.reset) (fun t => decide (t.tx.cmd = 0x02 ∧ t.tx.plen = 0)) = true := by
  decide
theorem test_read_sample : nextHas (exec .readSample State.reset) (fun t => decide (t.tx.cmd = 0x04 ∧ t.tx.plen = 0)) = true := by
  decide
theorem test_set_coef : nextHas (exec (.setCoef 0xFF) State.reset)
    (fun t => decide (t.tx.cmd = 0x08 ∧ t.tx.plen = 1 ∧ Memory.read t.tx.pay 0 = 0xFF)) = true := by decide
theorem test_read_coef : nextHas (exec .readCoef State.reset) (fun t => decide (t.tx.cmd = 0x10 ∧ t.tx.plen = 0)) = true := by
  decide
theorem test_autosend_off : nextHas (exec .autosendOff State.reset) (fun t => decide (t.tx.cmd = 0x20 ∧ t.tx.plen = 0)) = true := by
  decide
theorem test_autosend_on : nextHas (exec .autosendOn State.reset) (fun t => decide (t.tx.cmd = 0x40 ∧ t.tx.plen = 0)) = true := by
  decide

/-! ## The transmit unit, one step each: the frame of V18 -/

theorem test_t_hdr : nextHas (step (txState .hdr 0x55 3 0 0 [(0, 1), (1, 2), (2, 3)]))
    (fun t => decide (t.txs = [0x68] ∧ t.tx.acc = 0x68 ∧ t.tx.st = .len)) = true := by decide
theorem test_t_len : nextHas (step (txState .len 0x55 3 0 0x68 [(0, 1), (1, 2), (2, 3)]))
    (fun t => decide (t.txs = [0x04] ∧ t.tx.acc = 0x6C ∧ t.tx.st = .cmd)) = true := by decide
theorem test_t_cmd : nextHas (step (txState .cmd 0x55 3 0 0x6C [(0, 1), (1, 2), (2, 3)]))
    (fun t => decide (t.txs = [0x55] ∧ t.tx.acc = 0xC1 ∧ t.tx.st = .pay)) = true := by decide
theorem test_t_cmd_empty : nextHas (step (txState .cmd 0x01 0 0 0x69 [])) (fun t => decide (t.tx.st = .cks)) = true := by
  decide
theorem test_t_pay : nextHas (step (txState .pay 0x55 3 1 0xC2 [(0, 1), (1, 2), (2, 3)]))
    (fun t => decide (t.txs = [0x02] ∧ t.tx.acc = 0xC4 ∧ t.tx.idx = 2 ∧ t.tx.st = .pay)) = true := by decide
theorem test_t_pay_last : nextHas (step (txState .pay 0x55 3 2 0xC4 [(0, 1), (1, 2), (2, 3)]))
    (fun t => decide (t.txs = [0x03] ∧ t.tx.acc = 199 ∧ t.tx.st = .cks)) = true := by decide
theorem test_t_cks : nextHas (step (txState .cks 0x55 3 3 199 [(0, 1), (1, 2), (2, 3)]))
    (fun t => decide (t.txs = [0x39] ∧ t.trace = [.txdone] ∧ t.tx.st = .idle ∧ t.tx.acc = 199)) = true := by decide

/-! ## The receive unit, one step each: V20 to V23, V30, V40, V41 -/

theorem test_ack : nextHas (step (pairState 0xA5 0xA5)) (fun t => decide (t.trace = [.resp .posack []] ∧ t.rx.st = .idle)) = true := by
  decide
theorem test_nak : nextHas (step (pairState 0x96 0x96)) (fun t => decide (t.trace = [.resp .negack []] ∧ t.rx.st = .idle)) = true := by
  decide
theorem test_cdata : nextHas (step (pairState 0x40 0x05)) (fun t => decide
    (t.rx = { RxUnit.reset with st := .cpay, h0 := 0x40, rem := 5, drop := 1, acc := 0x45 })) = true := by decide
theorem test_cdata_empty : nextHas (step (pairState 0x40 0x00)) (fun t => decide (t.rx.st = .ccks ∧ t.rx.acc = 0x40)) = true := by
  decide
theorem test_sdata : nextHas (step (pairState 0x42 0x4D)) (fun t => decide
    (t.rx = { RxUnit.reset with st := .sbody, h0 := 0x42, rem := 28, drop := 2, acc := 143 })) = true := by decide
/-- V40b: A5 96 with 00 queued behind: flushed. -/
theorem test_malformed : nextHas (step { pairState 0xA5 0x96 with rxq := [0x96, 0x00] }) (fun t => decide
    (t.trace = [.err .malformed] ∧ t.rxq = [] ∧ t.flushes = 1 ∧ t.rx.st = .idle)) = true := by decide
/-- V41b: no classification on the first byte. -/
theorem test_r_h0 : nextHas (step (rxState .h0 0 0 0 0 0 [] 0x00)) (fun t => decide (t.rx.st = .h1 ∧ t.rx.h0 = 0 ∧ t.trace = [])) = true := by
  decide
/-- V22a: the echo 04 is dropped and summed. -/
theorem test_r_cpay_drop : nextHas (step (rxState .cpay 5 1 0x45 0 0 [] 0x04)) (fun t => decide
    (t.rx.acc = 0x49 ∧ t.rx.drop = 0 ∧ t.rx.rem = 4 ∧ t.rx.len = 0 ∧ t.rx.buf = [] ∧ t.rx.st = .cpay)) = true := by decide
/-- V22a: the last payload byte 31. -/
theorem test_r_cpay_last : nextHas (step (rxState .cpay 1 0 0x79 0 3 [(1, 0x30)] 0x31)) (fun t => decide
    (t.rx.acc = 0xAA ∧ t.rx.rem = 0 ∧ t.rx.len = 4 ∧ t.rx.buf = [(1, 0x30), (3, 0x31)] ∧ t.rx.st = .ccks)) = true := by decide
/-- V22a: the checksum 56. -/
theorem test_r_ccks_good : nextHas (step (rxState .ccks 0 0 0xAA 0 4 [(1, 0x30), (3, 0x31)] 0x56)) (fun t => decide
    (t.trace = [.resp .data [0x00, 0x30, 0x00, 0x31]] ∧ t.rx.st = .idle ∧ t.rx.len = 0)) = true := by decide
/-- V25: the checksum 57; bytes queued behind it stay (no flush). -/
theorem test_r_ccks_bad : nextHas (step { rxState .ccks 0 0 0xAA 0 4 [(1, 0x30), (3, 0x31)] 0x57 with rxq := [0x57, 0x11] })
    (fun t => decide (t.trace = [.err .checksum] ∧ t.rx.st = .idle ∧ t.rx.len = 0 ∧ t.rxq = [0x11] ∧ t.flushes = 0)) = true := by
  decide
/-- V30: the first echo byte is dropped. -/
theorem test_r_sbody : nextHas (step (rxState .sbody 28 2 143 0 0 [] 0x00)) (fun t => decide
    (t.rx.acc = 143 ∧ t.rx.drop = 1 ∧ t.rx.rem = 27 ∧ t.rx.st = .sbody)) = true := by decide
/-- V30: the last body byte 0C. -/
theorem test_r_sbody_last : nextHas (step (rxState .sbody 1 0 366 0 25 [] 0x0C)) (fun t => decide
    (t.rx.acc = 0x017A ∧ t.rx.len = 26 ∧ t.rx.st = .sckh)) = true := by decide
theorem test_r_sckh : nextHas (step (rxState .sckh 0 0 0x017A 0 26 [] 0x01)) (fun t => decide
    (t.rx.ckh = 0x01 ∧ t.rx.acc = 0x017A ∧ t.rx.st = .sckl)) = true := by decide
/-- V31a: the smallest sum with the echo 00 1C. -/
theorem test_r_sckl_good : nextHas (step (rxState .sckl 0 0 0x00AB 0x00 26 [] 0xAB)) (fun t => decide
    (t.trace = [.resp .data (List.replicate 26 0x00)] ∧ t.rx.st = .idle)) = true := by decide
/-- V34b: 007A is not 017A. -/
theorem test_r_sckl_bad : nextHas (step (rxState .sckl 0 0 0x017A 0x00 26 [] 0x7A)) (fun t => decide
    (t.trace = [.err .checksum] ∧ t.rx.st = .idle ∧ t.rx.len = 0)) = true := by decide
/-- V41a, V36b: the timeout, and no timeout while a byte is queued. -/
theorem test_timeout : nextHas (step { rxState .sbody 28 2 143 0 0 [] 0x00 with rxq := [], agenda := [.envTimeout] })
    (fun t => decide (t.trace = [.err .timeout] ∧ t.rx.st = .idle ∧ t.flushes = 0)) = true := by decide
theorem test_no_timeout : nextHas (step { rxState .sbody 28 2 143 0 0 [] 0x00 with agenda := [.envTimeout] })
    (fun t => decide (t.trace = [] ∧ t.rx.st = .sbody ∧ t.rxq = [0x00])) = true := by decide

/-! ## The faults: register values that no run reaches (log 10) -/

theorem test_fault_length_byte : faultIs (step (txState .len 0 255 0 0 [])) .txLengthByte = true := by decide
theorem test_fault_payload_index : faultIs (step (txState .pay 0 3 3 0 [])) .txPayloadIndex = true := by decide
theorem test_fault_count_zero : faultIs (step (rxState .cpay 0 0 0 0 0 [] 0x00)) .rxCountZero = true := by decide
theorem test_fault_buffer_index : faultIs (step (rxState .cpay 1 0 0 0 254 [] 0x00)) .rxBufferIndex = true ∧
    faultIs (step (rxState .ccks 0 0 0 0 255 [] 0x00)) .rxBufferIndex = true := by decide
theorem test_received_row_out_of_place : refusalIs (exec .ack State.reset) .notAtSecondHeaderByte = true := by decide

/-! ## Buffers, codes, host layer -/

theorem test_buffer_canonical : Memory.write [(1, 5), (3, 7)] 3 0 = [(1, 5)] ∧ Memory.write [(1, 5), (3, 7)] 2 9 = [(1, 5), (2, 9), (3, 7)] ∧
    Memory.wf [(253, 1)] = true ∧ Memory.wf [(254, 1)] = false ∧ Memory.wf [(3, 1), (1, 1)] = false ∧ Memory.wf [(3, 0)] = false := by
  decide
/-- 60_exceptions.md R260, 10_state.md R22, R27. -/
theorem test_codes : Event.code (.resp .negack []) = some 2 ∧ Event.code (.err .timeout) = some 6 ∧
    Event.code (.refused .dec) = some 7 ∧ Event.code .txdone = none ∧ TxSt.code .cks = 5 ∧ RxSt.code .sckl = 7 := by decide
/-- 43_session_host.md R226, R229, R231 to R234. -/
theorem test_driver : driverAnswer .stopMeasurement (.resp .negack []) = some .commandFailure ∧
    driverAnswer .readCoefficient (.resp .data [0x64]) = some (.coefficient 100) ∧
    decodeSample .standard false [0, 55, 0, 77] = some (.standard { pm25 := 55, pm10 := 77 }) ∧
    decodeSample .compact true (List.replicate 26 0) = none ∧
    loopDecision .standard (fun _ => false) (.resp .data (List.replicate 26 0)) = some .cleanStop ∧
    loopDecision .standard (fun _ => true) (.resp .data (List.replicate 26 0)) = some .again ∧
    loopDecision .standard (fun _ => true) (.err .timeout) = some (.errorStop .timeout) := by
  decide
/-- The model's choices of log 21 and log 23: no answer where the payload is not one byte, or yields no sample. -/
theorem test_host_payloads_without_meaning : driverAnswer .readCoefficient (.resp .data [0x64, 0x64]) = none ∧
    driverAnswer .readCoefficient (.resp .data []) = none ∧
    loopDecision .standard (fun _ => true) (.resp .data []) = none ∧
    loopDecision .compact (fun _ => true) (.resp .data (List.replicate 26 0)) = none := by decide
/-- The model's choice of log 22: a wait is passed by a block that a reset has left idle, with no event in the trace. -/
theorem test_wait_after_reset : nextHas (step (hostState .await [])) (fun t => decide (t.hostq = [] ∧ t.trace = [])) = true := by
  decide
/-- The model's choice of log 24: a wait behind a REFUSED request is passed by an idle block, with no TXDONE in the trace. -/
theorem test_wait_after_refusal : nextHas (step { hostState .await [] with trace := [.refused .enc] })
    (fun t => decide (t.hostq = [] ∧ t.trace = [.refused .enc])) = true := by
  decide
/-- V22a, V23d, V23e, V27, V40d as outcomes of whole frames. -/
theorem test_frame_outcome : frameOutcome [0x40, 0x05, 0x04, 0x00, 0x30, 0x00, 0x31, 0x56] = some (.resp .data [0x00, 0x30, 0x00, 0x31]) ∧
    frameOutcome [0x40, 0x00, 0xC1] = some (.err .checksum) ∧ frameOutcome [0x40, 0x01, 0x04, 0xBB] = some (.resp .data []) ∧
    frameOutcome [0x40, 0x03, 0x04, 0x00, 0x30, 0x00] = some (.err .checksum) ∧
    frameOutcome [0x4D, 0x42] = some (.err .malformed) := by decide

/-! ## Witnesses: for each statement with hypotheses, states and operands that meet them, clause by clause -/

theorem witness_Cks8AnswersTheSumComplement : byteSum [0x80, 0x80] % 256 = 0 := by decide

theorem witness_Cks16AnswersThePlainSum : byteSum [0xFF, 0xFF] < 65536 := by decide

/-- V22a: its first payload byte, its last one, its checksum byte. -/
theorem witness_PayloadBodyAndChecksumByteErrorsAreCaught_cdata : ∀ i ∈ [2, 6, 7],
    ∃ (bytes payload : List Byte) (hi : i < bytes.length) (b : Byte),
      frameOutcome bytes = some (.resp .data payload) ∧ 2 ≤ i ∧ b ≠ bytes[i] := by
  intro i hi
  simp only [List.mem_cons, List.not_mem_nil, or_false] at hi
  rcases hi with rfl | rfl | rfl <;>
    exact ⟨[0x40, 0x05, 0x04, 0x00, 0x30, 0x00, 0x31, 0x56], [0x00, 0x30, 0x00, 0x31], by decide, 0xFF, by decide⟩

/-- V31a: its first body byte and its last checksum byte. -/
theorem witness_PayloadBodyAndChecksumByteErrorsAreCaught_sdata : ∀ i ∈ [2, 31],
    ∃ (bytes payload : List Byte) (hi : i < bytes.length) (b : Byte),
      frameOutcome bytes = some (.resp .data payload) ∧ 2 ≤ i ∧ b ≠ bytes[i] := by
  intro i hi
  simp only [List.mem_cons, List.not_mem_nil, or_false] at hi
  rcases hi with rfl | rfl <;>
    exact ⟨[0x42, 0x4D, 0x00, 0x1C] ++ List.replicate 26 0x00 ++ [0x00, 0xAB], List.replicate 26 0x00, by decide, 0xFF,
      by decide⟩

/-- The clauses about the sums, and about the two tests of the decoder (V22a, V31a). -/
theorem witness_PayloadBodyAndChecksumByteErrorsAreCaught_sums :
    (∃ (p : List Byte) (i : Nat) (hi : i < p.length) (b : Byte), b ≠ p[i]) ∧
    (sumCloses 0xAA 0x56 = true ∧ (0x57 : Byte) ≠ 0x56) ∧
    (sumEquals 0x00AB 0x00 0xAB = true ∧ ((0x01 : Byte), (0xAB : Byte)) ≠ (0x00, 0xAB)) :=
  ⟨⟨[0x04], 0, by decide, 0x05, by decide⟩, by decide, by decide⟩

theorem witness_CoveredSumsStayBelow65536 :
    (List.replicate 254 (0xFF : Byte)).length ≤ 254 ∧ (List.replicate 255 (0xFF : Byte)).length = (0xFF : Byte).toNat ∧
    ([] : List Byte).length = (0x00 : Byte).toNat ∧ (List.replicate 28 (0xFF : Byte)).length = 28 :=
  ⟨List.length_replicate.le, List.length_replicate, rfl, List.length_replicate⟩

/-- A quiescent block, and the longest payload. -/
theorem witness_QuiescentBlockAcceptsEnc : ∃ (pay : List Byte) (s : State),
    s.tx.st = .idle ∧ s.rx.st = .idle ∧ pay.length = 254 ∧ Memory.wf s.tx.pay = true :=
  ⟨List.replicate 254 0xFF, State.reset, rfl, rfl, List.length_replicate, rfl⟩

theorem witness_FramesOutOfTurnAreRefused :
    (∃ s : State, s.tx.st ≠ .idle) ∧ (∃ s : State, s.rx.st ≠ .idle) ∧ (∃ pay : List Byte, pay.length = 255) ∧
    Instr.startMeas.space = .command :=
  ⟨⟨txState .hdr 0 0 0 0 [], by decide⟩, ⟨pairState 0 0, by decide⟩, ⟨List.replicate 255 0, List.length_replicate⟩, rfl⟩

/-- The shortest and the longest payload, and LL = 0. -/
theorem witness_GenericCommandIsAcceptedLikeEnc :
    (Instr.cmd 0x01 0xFF []).wellFormed = true ∧ (Instr.cmd 0x00 0x01 []).wellFormed = true ∧
    (Instr.cmd 0xFF 0x08 (List.replicate 254 0)).wellFormed = true ∧ State.reset.quiescent = true := by
  refine ⟨by decide, by decide, ?_, by decide⟩
  rw [Instr.wellFormed, List.length_replicate]
  decide

theorem witness_NamedCommandsEmitTheirFrames :
    (∃ s : State, s.quiescent = true ∧ Memory.wf s.tx.pay = true ∧ ∃ t, exec .startMeas s = .next t) ∧
    (∃ s : State, s.quiescent = false) :=
  ⟨⟨State.reset, by decide, by decide, _, rfl⟩, ⟨pairState 0 0, by decide⟩⟩

theorem witness_DecIsAcceptedOrRefused :
    (State.reset.tx.st = .idle ∧ State.reset.rx.st = .idle) ∧ (∃ s : State, s.tx.st ≠ .idle) ∧ (∃ s : State, s.rx.st ≠ .idle) :=
  ⟨⟨rfl, rfl⟩, ⟨txState .hdr 0 0 0 0 [], by decide⟩, ⟨pairState 0 0, by decide⟩⟩

theorem witness_HeaderStepPushes0x68 : ∃ s : State, s.agenda = .txu :: [] ∧ s.tx.st = .hdr :=
  ⟨txState .hdr 0x55 3 0 0 [], rfl, rfl⟩

/-- TX_PLEN at both ends of its range. -/
theorem witness_LengthStepPushesPlenPlusOne :
    (∃ s : State, s.agenda = .txu :: [] ∧ s.tx.st = .len ∧ s.tx.plen.toNat = 0) ∧
    (∃ s : State, s.agenda = .txu :: [] ∧ s.tx.st = .len ∧ s.tx.plen.toNat = 254) :=
  ⟨⟨txState .len 0x55 0 0 0x68 [], rfl, rfl, rfl⟩, ⟨txState .len 0x55 254 0 0x68 [], rfl, rfl, rfl⟩⟩

theorem witness_CommandStepPushesTxCmd : ∃ s : State, s.agenda = .txu :: [] ∧ s.tx.st = .cmd :=
  ⟨txState .cmd 0x55 0 0 0x69 [], rfl, rfl⟩

/-- The last byte of the longest payload. -/
theorem witness_PayloadStepPushesTheIndexedByte : ∃ s : State, s.agenda = .txu :: [] ∧ s.tx.st = .pay ∧
    s.tx.idx.toNat < s.tx.plen.toNat ∧ s.tx.plen.toNat = 254 :=
  ⟨txState .pay 0x55 254 253 0 [], rfl, rfl, by decide, rfl⟩

/-- A frame without payload at its checksum: 68 01 01. -/
theorem witness_ChecksumStepClosesTheFrame : ∃ s : State, s.agenda = .txu :: [] ∧ s.tx.st = .cks ∧ TxInv s.tx :=
  ⟨txState .cks 0x01 0 0 0x6A [], rfl, rfl, by constructor <;> simp [txState, sentSoFar, lengthByte, Memory.readFrom]⟩

/-- TXU's turns for an empty payload, with every other kind of move between them. -/
theorem witness_AcceptedFrameIsPushedUnderAnyInterleaving : ∃ (s : State) (cmd : Byte) (pay : List Byte) (hq : List HostAct)
    (ms ag : List Move), s.tx.st = .idle ∧ s.rx.st = .idle ∧ pay.length ≤ 254 ∧ Memory.wf s.tx.pay = true ∧
    s.hostq = .op (0x02 :: cmd :: pay) :: hq ∧ s.agenda = .host :: (ms ++ ag) ∧ ms.all notHostNorReset = true ∧
    pay.length + 4 ≤ ms.count .txu :=
  ⟨hostState (.op [0x02, 0x55])
      [.txu, .rxu, .envByte 0xA5, .txu, .envTimeout, .txu, .envTake, .txu, .envDrop 0, .txu, .host],
    0x55, [], [], [.txu, .rxu, .envByte 0xA5, .txu, .envTimeout, .txu, .envTake, .txu, .envDrop 0, .txu], [.host],
    rfl, rfl, by decide, rfl, rfl, rfl, by decide, by decide⟩

/-- No turn of TXU yet, and all of them. -/
theorem witness_EncEndsAfterPlenPlusFourSteps : ∀ k ∈ [0, 5], ∃ (s : State) (cmd : Byte) (pay : List Byte) (hq : List HostAct),
    s.tx.st = .idle ∧ s.rx.st = .idle ∧ pay.length ≤ 254 ∧ k ≤ pay.length + 4 ∧
    s.hostq = .op (0x02 :: cmd :: pay) :: hq ∧ s.agenda = .host :: List.replicate k .txu := by
  intro k hk
  refine ⟨hostState (.op [0x02, 0x08, 0x64]) (List.replicate k .txu), 0x08, [0x64], [], rfl, rfl, by decide, ?_, rfl, rfl⟩
  simp at hk; rcases hk with rfl | rfl <;> decide

theorem witness_EmittedFrameShape : (List.replicate 254 (0xFF : Byte)).length ≤ 254 ∧ ([] : List Byte).length ≤ 254 ∧
    frame 0xFF [] = frame 0xFF [] := ⟨List.length_replicate.le, by decide, rfl⟩

theorem witness_TransmitStreamOnlyGrows :
    (∃ s t : State, step s = .next t ∧ t.txs = s.txs) ∧ (∃ s t : State, step s = .next t ∧ t.txs ≠ s.txs) :=
  ⟨⟨pairState 0xA5 0xA5, _, rfl, rfl⟩, ⟨txState .hdr 0 0 0 0 [], _, rfl, by decide⟩⟩

theorem witness_FirstHeaderByteIsOnlyHeld :
    (∃ (s : State) (b : Byte), s.agenda = .rxu :: [] ∧ s.rx.st = .h0 ∧ s.rxq = b :: []) ∧
    (∃ s : State, s.agenda = .envTimeout :: [] ∧ s.rx.st = .h1 ∧ s.rxq = []) :=
  ⟨⟨rxState .h0 0 0 0 0 0 [] 0x00, 0x00, rfl, rfl, rfl⟩,
   ⟨{ pairState 0x00 0x00 with rxq := [], agenda := [.envTimeout] }, rfl, rfl, rfl⟩⟩

/-- One pair for each class. -/
theorem witness_SecondHeaderByteRunsTheDecodedRow :
    ∀ p ∈ [((0xA5 : Byte), (0xA5 : Byte)), (0x96, 0x96), (0x40, 0x00), (0x40, 0xFF), (0x42, 0x4D), (0x42, 0x4E)],
      ∃ (s : State) (b : Byte), s.agenda = .rxu :: [] ∧ s.rx.st = .h1 ∧ s.rxq = b :: [] ∧ (s.rx.h0, b) = p :=
  fun p _ => ⟨pairState p.1 p.2, p.2, rfl, rfl, rfl, rfl⟩

theorem witness_HeaderMapIsTotalAndDisjoint : legalHeader 0x42 0x4C = false ∧ legalHeader 0x40 0x00 = true := by decide

theorem witness_AcknowledgesAreDelivered : (∃ s : State, s.rx.st = .h1) ∧ (0x96 : Byte) ≠ 0xA5 ∧ (0xA5 : Byte) ≠ 0x96 :=
  ⟨⟨pairState 0xA5 0xA5, rfl⟩, by decide, by decide⟩

theorem witness_CdataFrameStarts : ∃ s : State, s.rx.st = .h1 := ⟨pairState 0x40 0x05, rfl⟩

theorem witness_SdataFrameStarts : (∃ s : State, s.rx.st = .h1) ∧ (0x4C : Byte) ≠ 0x4D :=
  ⟨⟨pairState 0x42 0x4D, rfl⟩, by decide⟩

theorem witness_MalformedHeaderFlushesOnce : (∃ s : State, s.rx.st = .h1 ∧ s.rx.len = 0) ∧ legalHeader 0x00 0xFF = false :=
  ⟨⟨pairState 0x00 0xFF, rfl, rfl⟩, by decide⟩

theorem witness_ReceivedRowsRunOnlyInTheirState : ∃ (i : Instr) (s : State), i.space = .received ∧ s.rx.st ≠ .h1 :=
  ⟨.ack, State.reset, rfl, by decide⟩

/-- A byte that is dropped; one stored at the last element; one that is the last of the payload. -/
theorem witness_PayloadByteIsSummedAndKept :
    (∃ (s : State) (b : Byte), s.agenda = .rxu :: [] ∧ s.rx.st = .cpay ∧ s.rxq = b :: [] ∧ 1 ≤ s.rx.rem.toNat ∧ 0 < s.rx.drop.toNat) ∧
    (∃ (s : State) (b : Byte), s.agenda = .rxu :: [] ∧ s.rx.st = .cpay ∧ s.rxq = b :: [] ∧ 1 ≤ s.rx.rem.toNat ∧
      s.rx.drop.toNat = 0 ∧ s.rx.len.toNat = 253 ∧ Memory.wf s.rx.buf = true) :=
  ⟨⟨rxState .cpay 255 1 0 0 0 [] 7, 7, rfl, rfl, rfl, by decide, by decide⟩,
   ⟨rxState .cpay 1 0 0 0 253 [(0, 1)] 7, 7, rfl, rfl, rfl, by decide, by decide, by decide, by decide⟩⟩

theorem witness_BodyByteIsSummedAndKept :
    (∃ (s : State) (b : Byte), s.agenda = .rxu :: [] ∧ s.rx.st = .sbody ∧ s.rxq = b :: [] ∧ 1 ≤ s.rx.rem.toNat ∧ 0 < s.rx.drop.toNat) ∧
    (∃ (s : State) (b : Byte), s.agenda = .rxu :: [] ∧ s.rx.st = .sbody ∧ s.rxq = b :: [] ∧ 1 ≤ s.rx.rem.toNat ∧
      s.rx.drop.toNat = 0 ∧ s.rx.len.toNat = 25 ∧ Memory.wf s.rx.buf = true) :=
  ⟨⟨rxState .sbody 28 2 0 0 0 [] 7, 7, rfl, rfl, rfl, by decide, by decide⟩,
   ⟨rxState .sbody 1 0 0 0 25 [(0, 1)] 7, 7, rfl, rfl, rfl, by decide, by decide, by decide, by decide⟩⟩

/-- V22a and V25; the fullest buffer. -/
theorem witness_CdataChecksumDecides :
    (∃ (s : State) (b : Byte), s.agenda = .rxu :: [] ∧ s.rx.st = .ccks ∧ s.rxq = b :: [] ∧ s.rx.len.toNat ≤ 254 ∧
      (s.rx.acc.toNat + b.toNat) % 256 = 0) ∧
    (∃ (s : State) (b : Byte), s.agenda = .rxu :: [] ∧ s.rx.st = .ccks ∧ s.rxq = b :: [] ∧ s.rx.len.toNat = 254 ∧
      (s.rx.acc.toNat + b.toNat) % 256 ≠ 0) :=
  ⟨⟨rxState .ccks 0 0 0xAA 0 4 [] 0x56, 0x56, rfl, rfl, rfl, by decide, by decide⟩,
   ⟨rxState .ccks 0 0 0xFF40 0 254 [] 0xC1, 0xC1, rfl, rfl, rfl, by decide, by decide⟩⟩

theorem witness_ChecksumHighByteIsHeld : ∃ (s : State) (b : Byte), s.agenda = .rxu :: [] ∧ s.rx.st = .sckh ∧ s.rxq = b :: [] :=
  ⟨rxState .sckh 0 0 0x017A 0 26 [] 0x01, 0x01, rfl, rfl, rfl⟩

/-- V31a and V34b. -/
theorem witness_SdataChecksumDecides :
    (∃ (s : State) (b : Byte), s.agenda = .rxu :: [] ∧ s.rx.st = .sckl ∧ s.rxq = b :: [] ∧
      s.rx.ckh.toNat * 256 + b.toNat = s.rx.acc.toNat) ∧
    (∃ (s : State) (b : Byte), s.agenda = .rxu :: [] ∧ s.rx.st = .sckl ∧ s.rxq = b :: [] ∧
      s.rx.ckh.toNat * 256 + b.toNat ≠ s.rx.acc.toNat) :=
  ⟨⟨rxState .sckl 0 0 0x00AB 0x00 26 [] 0xAB, 0xAB, rfl, rfl, rfl, by decide⟩,
   ⟨rxState .sckl 0 0 0x017A 0x00 26 [] 0x7A, 0x7A, rfl, rfl, rfl, by decide⟩⟩

theorem witness_TimeoutEndsAWaitingDecode :
    (∃ s : State, s.agenda = .envTimeout :: [] ∧ s.rx.st ≠ .idle ∧ s.rxq = []) ∧
    (∃ s : State, s.agenda = .envTimeout :: [] ∧ s.rx.st = .idle) ∧
    (∃ s : State, s.agenda = .envTimeout :: [] ∧ s.rx.st ≠ .idle ∧ s.rxq ≠ []) :=
  ⟨⟨{ pairState 0 0 with rxq := [], agenda := [.envTimeout] }, rfl, by decide, rfl⟩,
   ⟨{ State.reset with agenda := [.envTimeout] }, rfl, rfl⟩,
   ⟨{ pairState 0 0 with agenda := [.envTimeout] }, rfl, by decide, by decide⟩⟩

theorem witness_WaitingHoldsEverything :
    (∃ s : State, s.agenda = .rxu :: [] ∧ s.rxq = [] ∧ s.rx.st ≠ .idle) ∧
    (∃ s : State, s.agenda = .rxu :: [] ∧ s.rxq ≠ [] ∧ s.rx.st = .idle) :=
  ⟨⟨{ pairState 0 0 with rxq := [] }, rfl, rfl, by decide⟩, ⟨{ State.reset with rxq := [7], agenda := [.rxu] }, rfl, by decide, rfl⟩⟩

theorem witness_ReceiveTurnsFollowTheTable : ∃ (s t : State) (b : Byte),
    s.agenda = .rxu :: [] ∧ s.rx.st ≠ .idle ∧ s.rxq = b :: [] ∧ step s = .next t :=
  ⟨pairState 0x42 0x4D, _, 0x4D, rfl, by decide, rfl, rfl⟩

/-- One step for each of the four cases. -/
theorem witness_OnlyTheseMovesChangeTheReceiveUnit :
    (∃ s t : State, step s = .next t ∧ t.rx ≠ s.rx ∧ (schedule s).1 = .rxu) ∧
    (∃ s t : State, step s = .next t ∧ t.rx ≠ s.rx ∧ (schedule s).1 = .envTimeout) ∧
    (∃ s t : State, step s = .next t ∧ t.rx ≠ s.rx ∧ (schedule s).1 = .host) ∧
    (∃ s t : State, step s = .next t ∧ t.rx ≠ s.rx ∧ (schedule s).1 = .reset) :=
  ⟨⟨pairState 0x42 0x4D, _, rfl, by decide, rfl⟩,
   ⟨{ pairState 0 0 with rxq := [], agenda := [.envTimeout] }, _, rfl, by decide, rfl⟩,
   ⟨hostState (.op [0x03]) [], _, rfl, by decide, rfl⟩,
   ⟨{ pairState 0 0 with agenda := [.reset] }, _, rfl, by decide, rfl⟩⟩

theorem witness_OnlyTheseMovesChangeTheTransmitUnit :
    (∃ s t : State, step s = .next t ∧ t.tx ≠ s.tx ∧ (schedule s).1 = .txu) ∧
    (∃ s t : State, step s = .next t ∧ t.tx ≠ s.tx ∧ (schedule s).1 = .host) ∧
    (∃ s t : State, step s = .next t ∧ t.tx ≠ s.tx ∧ (schedule s).1 = .reset) :=
  ⟨⟨txState .hdr 0 0 0 0 [], _, rfl, by decide, rfl⟩,
   ⟨hostState (.frame [0x68, 0x01, 0x01]) [], _, rfl, by decide, rfl⟩,
   ⟨{ txState .len 0 0 0 0x68 [] with agenda := [.reset] }, _, rfl, by decide, rfl⟩⟩

/-- A frame of each kind with a byte behind it: V20, V23b, V23d, V40a, V31a, and V31a with its last byte changed. -/
theorem witness_DecoderIsAFunctionOfTheFrame :
    ∀ p ∈ [([(0xA5 : Byte), 0xA5], Event.resp .posack []), ([0x40, 0x02, 0x10, 0x64, 0x4A], .resp .data [0x64]),
        ([0x40, 0x00, 0xC1], .err .checksum), ([0x00, 0xFF], .err .malformed),
        ([0x42, 0x4D, 0x00, 0x1C] ++ List.replicate 26 0x00 ++ [0x00, 0xAB], .resp .data (List.replicate 26 0x00)),
        ([0x42, 0x4D, 0x00, 0x1C] ++ List.replicate 26 0x00 ++ [0x00, 0xAC], .err .checksum)],
      ∃ (s : State) (q : List Byte) (hq : List HostAct) (ag : List Move), s.tx.st = .idle ∧ s.rx.st = .idle ∧
        Memory.wf s.rx.buf = true ∧ s.rxq = p.1 ++ q ∧ frameOutcome p.1 = some p.2 ∧ s.hostq = .op [0x03] :: hq ∧
        s.agenda = .host :: (List.replicate p.1.length .rxu ++ ag) := by
  intro p hp
  refine ⟨{ hostState (.op [0x03]) (List.replicate p.1.length .rxu ++ []) with rxq := p.1 ++ [0x12] }, [0x12], [], [],
    rfl, rfl, rfl, rfl, ?_, rfl, rfl⟩
  revert p; decide

/-- Two states that differ in TXU, TXS and the trace. -/
theorem witness_DecodingIgnoresTheTransmitter : ∃ s s' t : State, s.agenda = .rxu :: [] ∧ s'.agenda = .rxu :: [] ∧
    s'.rx = s.rx ∧ s'.rxq = s.rxq ∧ s'.tx ≠ s.tx ∧ step s = .next t :=
  ⟨pairState 0x42 0x4D, { pairState 0x42 0x4D with tx := { TxUnit.reset with cmd := 0x04 }, txs := [0x68], trace := [.txdone] },
    _, rfl, rfl, rfl, rfl, by decide, rfl⟩

/-- A block that sends `68 01 01 96` and has pushed nothing yet. -/
theorem inv_sending : Inv (txState .hdr 0x01 0 0 0 []) := by
  refine ⟨.inr rfl, ?_, ?_, Nat.le_refl 0⟩ <;> constructor <;> simp [txState, State.reset, RxUnit.reset, sentSoFar]

/-- A block that has read `40 05` of V22a, with `04` queued. -/
theorem inv_receiving : Inv (rxState .cpay 5 1 0x45 0 0 [] 0x04) := by
  refine ⟨.inl rfl, ?_, ?_, Nat.le_refl 0⟩ <;> constructor <;> simp [rxState, State.reset, TxUnit.reset]

theorem witness_TrafficIsHalfDuplex :
    (∃ s t : State, Inv s ∧ step s = .next t ∧ t.txs ≠ s.txs) ∧
    (∃ s t : State, Inv s ∧ step s = .next t ∧ (schedule s).1 = .rxu ∧ t.rxq ≠ s.rxq) :=
  ⟨⟨_, _, inv_sending, rfl, by decide⟩, ⟨_, _, inv_receiving, rfl, rfl, by decide⟩⟩

theorem witness_BlockFlushesOnlyOnMalformed : ∃ s t : State, step s = .next t ∧ t.flushes ≠ s.flushes :=
  ⟨pairState 0x00 0xFF, _, rfl, by decide⟩

/-- A byte popped, a byte appended, a flush by the block, a flush by HOST. -/
theorem witness_ReceiveQueueIsFirstInFirstOut :
    (∃ s t : State, step s = .next t ∧ s.rxq = 0x4D :: t.rxq) ∧ (∃ s t : State, step s = .next t ∧ t.rxq = s.rxq ++ [0x12]) ∧
    (∃ s t : State, step s = .next t ∧ s.rxq = [0xFF, 0x01] ∧ t.rxq = [] ∧ t.flushes = s.flushes + 1) ∧
    (∃ s t : State, step s = .next t ∧ s.rxq = [0xFF, 0x01] ∧ t.rxq = [] ∧ t.flushes = s.flushes) :=
  ⟨⟨pairState 0x42 0x4D, _, rfl, rfl⟩, ⟨{ State.reset with agenda := [.envByte 0x12] }, _, rfl, rfl⟩,
   ⟨{ pairState 0x00 0xFF with rxq := [0xFF, 0x01] }, _, rfl, rfl, rfl, rfl⟩,
   ⟨{ hostState .flush [] with rxq := [0xFF, 0x01] }, _, rfl, rfl, rfl, rfl⟩⟩

theorem witness_TraceGrowsByAtMostOneEvent :
    (∃ s t : State, step s = .next t ∧ t.trace = s.trace) ∧
    (∃ s t : State, step s = .next t ∧ t.trace = s.trace ++ [.refused .dec]) :=
  ⟨⟨txState .hdr 0 0 0 0 [], _, rfl, rfl⟩, ⟨{ pairState 0 0 with hostq := [.op [0x03]], agenda := [.host] }, _, rfl, rfl⟩⟩

theorem witness_AppendTakeAndLossMovesTouchOnlyTheStreams :
    (∃ s : State, s.agenda = .envByte 0xFF :: []) ∧ (∃ s : State, s.agenda = .envTake :: [] ∧ s.txTaken < s.txs.length) ∧
    (∃ s : State, s.agenda = .envTake :: [] ∧ s.txTaken = s.txs.length) ∧ (∃ s : State, s.agenda = .envDrop 0 :: []) :=
  ⟨⟨{ State.reset with agenda := [.envByte 0xFF] }, rfl⟩,
   ⟨{ State.reset with agenda := [.envTake], txs := [0x68] }, rfl, by decide⟩,
   ⟨{ State.reset with agenda := [.envTake] }, rfl, rfl⟩, ⟨{ State.reset with agenda := [.envDrop 0] }, rfl⟩⟩

theorem witness_HostWaitsForQuiescence :
    (∃ s : State, s.agenda = .host :: [] ∧ s.hostq = .flush :: [] ∧ s.quiescent = true) ∧
    (∃ s : State, s.agenda = .host :: [] ∧ s.hostq = .await :: [] ∧ s.quiescent = true) ∧
    (∃ s : State, s.agenda = .host :: [] ∧ s.hostq = .flush :: [] ∧ s.quiescent = false) ∧
    (∃ s : State, s.agenda = .host :: [] ∧ s.hostq = .await :: [] ∧ s.quiescent = false) ∧
    (∃ s : State, s.agenda = .host :: [] ∧ s.hostq = .settle :: []) :=
  ⟨⟨hostState .flush [], rfl, rfl, by decide⟩, ⟨hostState .await [], rfl, rfl, by decide⟩,
   ⟨{ pairState 0 0 with hostq := [.flush], agenda := [.host] }, rfl, rfl, by decide⟩,
   ⟨{ pairState 0 0 with hostq := [.await], agenda := [.host] }, rfl, rfl, by decide⟩, ⟨hostState .settle [], rfl, rfl⟩⟩

theorem witness_InitialisationSendsTwoFramesAndFlushes : ∃ (s : State) (hq : List HostAct) (ag : List Move),
    s.quiescent = true ∧ s.hostq = initScript ++ hq ∧ s.agenda =
      .host :: (List.replicate 4 .txu ++ [.host, .host] ++ List.replicate 4 .txu ++ [.host, .host, .host] ++ ag) :=
  ⟨{ State.reset with
      rxq := [0x42, 0x4D], hostq := initScript ++ []
      agenda := .host :: (List.replicate 4 .txu ++ [.host, .host] ++ List.replicate 4 .txu ++ [.host, .host, .host] ++ []) },
    [], [], by decide, rfl, rfl⟩

/-- The bounds of the coefficient and the values beside them. -/
theorem witness_HostBoundsAndSampleFields : (29 < 30 ∨ 200 < 29) ∧ (201 < 30 ∨ 200 < 201) ∧ (30 ≤ 30 ∧ 30 ≤ 200) ∧
    (30 ≤ 200 ∧ 200 ≤ 200) := by decide

theorem witness_StepRunsTheDecodedRequest :
    (∃ s : State, s.agenda = .host :: [] ∧ s.hostq = .op [0x03] :: [] ∧ decode .hostop [0x03] = .ok .dec) ∧
    (∃ s : State, s.agenda = .host :: [] ∧ s.hostq = .op [0x04] :: [] ∧ decode .hostop [0x04] = .error .unknownOp) ∧
    (∃ s : State, s.agenda = .host :: [] ∧ s.hostq = .frame [0x68, 0x01, 0x10] :: [] ∧
      decode .command [0x68, 0x01, 0x10] = .ok .readCoef) ∧
    (∃ s : State, s.agenda = .host :: [] ∧ s.hostq = .frame [0x40, 0x01, 0x10] :: [] ∧
      decode .command [0x40, 0x01, 0x10] = .error .notCommandHeader) :=
  ⟨⟨hostState (.op [0x03]) [], rfl, rfl, rfl⟩, ⟨hostState (.op [0x04]) [], rfl, rfl, rfl⟩,
   ⟨hostState (.frame [0x68, 0x01, 0x10]) [], rfl, rfl, rfl⟩, ⟨hostState (.frame [0x40, 0x01, 0x10]) [], rfl, rfl, rfl⟩⟩

theorem witness_HostRequestsDecodeByOperationByte : 3 < (0x04 : Byte).toNat ∧ 3 < (0xFF : Byte).toNat := by decide

theorem witness_DecodeOfEncodeIsTheInstruction :
    (Instr.cmd 0x00 0x01 []).wellFormed = true ∧ (Instr.cmd 0x02 0x09 [0xFF]).wellFormed = true ∧
    (Instr.malformed 0x96 0xA5).wellFormed = true ∧ (Instr.cdata 0xFF).wellFormed = true := by decide

theorem witness_EncodeOfDecodeIsTheWord :
    decode .hostop [0x02, 0x01] = .ok (.enc 0x01 []) ∧ decode .command [0x68, 0x00, 0x01] = .ok (.cmd 0x00 0x01 []) ∧
    decode .received [0x40, 0xFF] = .ok (.cdata 0xFF) := ⟨rfl, rfl, rfl⟩

theorem witness_DecoderFollowsTheOpcodeTable :
    decode .command [0x68, 0x02, 0x08, 0x1E] = .ok (.setCoef 0x1E) ∧ decode .received [0x42, 0x42] = .ok (.malformed 0x42 0x42) :=
  ⟨rfl, rfl⟩

theorem witness_BlockResetTouchesOnlyTheUnits : ∃ s : State, s.agenda = .reset :: [] ∧ s.tx.st ≠ .idle ∧ s.txs ≠ [] :=
  ⟨{ txState .len 0 0 0 0x68 [] with agenda := [.reset], txs := [0x68] }, rfl, by decide, by decide⟩

theorem witness_EveryStepKeepsInv :
    (∃ s t : State, Inv s ∧ step s = .next t ∧ t.tx ≠ s.tx) ∧ (∃ s t : State, Inv s ∧ step s = .next t ∧ t.rx ≠ s.rx) :=
  ⟨⟨_, _, inv_sending, rfl, by decide⟩, ⟨_, _, inv_receiving, rfl, by decide⟩⟩

theorem witness_NoFaultFromInv : ∃ s : State, Inv s ∧ s.tx.st ≠ .idle := ⟨_, inv_sending, by decide⟩

end Sys2Proof.Tests
end

