-- ==== Sys2Proof/Proofs/Checksum.lean ====
section
/-! PROOFS. The two checksum operations (40_checksum.md R130, R131): what each does to the state, which value a byte
sequence's checksum has, and the statements about both. -/

namespace Sys2Proof.Machine

/-! ## The two operations as next states -/

theorem exec_cks8 (bytes : List Byte) (s : State) :
    exec (.cks8 bytes) s = .next { s with trace := s.trace ++ [.val8 (cks8 bytes)] } := rfl

theorem exec_cks16 (bytes : List Byte) (s : State) :
    exec (.cks16 bytes) s = .next { s with trace := s.trace ++ [.val16 (cks16 bytes)] } := rfl

/-! ## When a value is the checksum of a sequence -/

/-- A byte is the sum complement exactly when it completes the sum to a multiple of 256 (R134). -/
theorem cks8_eq_iff (s : List Byte) (k : Byte) : cks8 s = k ↔ (byteSum s + k.toNat) % 256 = 0 := by
  have := k.isLt
  rw [← BitVec.toNat_inj, cks8_toNat]
  omega

theorem cks8_eq_zero_iff (s : List Byte) : cks8 s = 0 ↔ byteSum s % 256 = 0 := by
  simpa using cks8_eq_iff s 0

theorem cks16_eq_iff (s : List Byte) (w : Word16) : cks16 s = w ↔ byteSum s % 65536 = w.toNat := by
  rw [← BitVec.toNat_inj, cks16_toNat]

theorem cks16_toNat_of_lt (s : List Byte) (h : byteSum s < 65536) : (cks16 s).toNat = byteSum s := by
  rw [cks16_toNat, Nat.mod_eq_of_lt h]

/-! ## The rules' corner case of a sum above 65536: 300 bytes FF -/

theorem byteSum_300_FF : byteSum (List.replicate 300 0xFF) = 76500 := byteSum_replicate 300 0xFF

theorem cks8_300_FF : cks8 (List.replicate 300 0xFF) = 0x2C := by
  rw [cks8_eq_iff, byteSum_300_FF]
  decide

theorem cks16_300_FF : cks16 (List.replicate 300 0xFF) = 0x2AD4 := by
  rw [cks16_eq_iff, byteSum_300_FF]
  decide

/-! ## The statements -/

/-- Settles O1: the answer is `cks8`, whose value `cks8_toNat_int` gives for every sequence; the short corner cases are
evaluated, the long one goes through its sum. -/
theorem cks8AnswersTheSumComplement : Obligations.Cks8AnswersTheSumComplement := by
  refine ⟨fun bytes s => ⟨cks8 bytes, exec_cks8 bytes s, cks8_toNat_int bytes, (cks8_eq_zero_iff bytes).2⟩, ?_⟩
  exact ⟨by decide, by decide, by decide, cks8_300_FF, by decide⟩

/-- Settles O2: the answer is `cks16`, whose value `cks16_toNat` gives for every sequence; the short corner cases are
evaluated, the long one goes through its sum. -/
theorem cks16AnswersThePlainSum : Obligations.Cks16AnswersThePlainSum := by
  refine ⟨fun bytes s => ⟨cks16 bytes, exec_cks16 bytes s, cks16_toNat bytes, cks16_toNat_of_lt bytes⟩, ?_⟩
  exact ⟨by decide, cks16_300_FF, by decide⟩

end Sys2Proof.Machine
end

