-- ==== Sys2Proof/Proofs/Transmit.lean ====
section
/-! PROOFS. The transmit unit (41_encode.md R142 to R146, R150 to R156): what a turn of TXU does in each of its states,
the run that pushes one accepted frame, and the statements about both. -/

namespace Sys2Proof.Machine

open Sys2Proof.Safety

/-! ## One turn of TXU, by state -/

section Turns

variable {s : State}

theorem txuTurn_hdr (h : s.tx.st = .hdr) : txuTurn s = .next (s.sendCovered Config.hdrCmd .len) := by
  rw [txuTurn, h]; rfl

theorem txuTurn_len (h : s.tx.st = .len) (hp : s.tx.plen.toNat ≤ 254) :
    txuTurn s = .next (s.sendCovered (lengthByte s.tx.plen) .cmd) := by
  have hne : s.tx.plen ≠ 255 := by bv_omega
  rw [txuTurn, h]; exact if_neg hne

theorem txuTurn_cmd (h : s.tx.st = .cmd) :
    txuTurn s = .next (s.sendCovered s.tx.cmd (if s.tx.plen = 0 then .cks else .pay)) := by
  rw [txuTurn, h]; rfl

/-- T_PAY with TX_IDX in its range (R23, R25): the whole next state. -/
theorem txuTurn_pay (h : s.tx.st = .pay) (hi : s.tx.idx.toNat < s.tx.plen.toNat) (hp : s.tx.plen.toNat ≤ 254) :
    txuTurn s = .next { s with
      txs := s.txs ++ [Memory.read s.tx.pay s.tx.idx.toNat]
      tx := { s.tx with
        acc := accAdd s.tx.acc (Memory.read s.tx.pay s.tx.idx.toNat)
        idx := s.tx.idx + 1
        st := if s.tx.idx + 1 = s.tx.plen then .cks else .pay } } := by
  have hb : s.tx.idx.toNat < Config.bufferSize := by simp only [Config.bufferSize]; omega
  rw [txuTurn, h]; exact if_pos ⟨hi, hb⟩

theorem txuTurn_cks (h : s.tx.st = .cks) :
    txuTurn s = .next { s with
      txs := s.txs ++ [closingByte s.tx.acc]
      trace := s.trace ++ [.txdone]
      tx := { s.tx with st := .idle } } := by
  rw [txuTurn, h]; rfl

/-- A step with TXU first on the agenda is a turn of TXU. -/
theorem step_txu {ag : List Move} (h : s.agenda = .txu :: ag) : step s = txuTurn { s with agenda := ag } :=
  step_cons h

end Turns

/-- Below another byte, one more does not wrap (TX_IDX below TX_PLEN, R25). -/
theorem succ_toNat_of_lt {i p : Byte} (h : i.toNat < p.toNat) : (i + 1).toNat = i.toNat + 1 := by
  bv_omega

/-! ## The statements about one step -/

/-- Settles O12: the turn in T_HDR, with the sum modulo 65536 written as a number (`accAdd_ofNat`). -/
theorem headerStepPushes0x68 : Obligations.HeaderStepPushes0x68 := by
  intro s ag hag hst
  refine ((step_txu hag).trans (txuTurn_hdr hst)).trans ?_
  rw [State.sendCovered, accAdd_ofNat]
  rfl

/-- Settles O13: the byte is `lengthByte TX_PLEN`, whose value does not wrap for TX_PLEN up to 254. -/
theorem lengthStepPushesPlenPlusOne : Obligations.LengthStepPushesPlenPlusOne := by
  intro s ag hag hst hp
  have hb : (lengthByte s.tx.plen).toNat = s.tx.plen.toNat + 1 := lengthByte_toNat _ hp
  refine ⟨lengthByte s.tx.plen, hb, by omega, by omega, ?_⟩
  refine ((step_txu hag).trans (txuTurn_len hst hp)).trans ?_
  rw [State.sendCovered, accAdd_ofNat, hb]
  rfl

/-- Settles O14: the turn in T_CMD; TX_PLEN is the byte 0 exactly when its value is 0. -/
theorem commandStepPushesTxCmd : Obligations.CommandStepPushesTxCmd := by
  intro s ag hag hst
  have hz : s.tx.plen.toNat = 0 ↔ s.tx.plen = 0 := by rw [← BitVec.toNat_inj]; rfl
  refine ((step_txu hag).trans (txuTurn_cmd hst)).trans ?_
  rw [State.sendCovered, accAdd_ofNat]
  simp only [hz]
  rfl

/-- Settles O15: the turn in T_PAY; TX_IDX + 1 does not wrap below TX_PLEN, so it is TX_PLEN exactly when the numbers
agree. -/
theorem payloadStepPushesTheIndexedByte : Obligations.PayloadStepPushesTheIndexedByte := by
  intro s ag hag hst hi hp
  have hlast : s.tx.idx.toNat + 1 = s.tx.plen.toNat ↔ s.tx.idx + 1 = s.tx.plen := by
    rw [← BitVec.toNat_inj, succ_toNat_of_lt hi]
  have hidx : BitVec.ofNat 8 (s.tx.idx.toNat + 1) = s.tx.idx + 1 := by bv_omega
  refine ((step_txu hag).trans (txuTurn_pay hst hi hp)).trans ?_
  simp only [accAdd_ofNat, hidx, hlast]

/-! ## The run that pushes a frame -/

/-- A run, then a run from where it ended. -/
theorem Reaches.trans {n m : Nat} {s t u : State} (h : Reaches n s t) (r : Reaches m t u) : Reaches (n + m) s u := by
  induction n generalizing s with
  | zero =>
    cases h
    rwa [Nat.zero_add]
  | succ n ih =>
    rw [Nat.succ_add]
    cases hs : step s with
    | next s' =>
      refine Reaches.cons hs (ih ?_)
      simpa only [Reaches, Host.Core.run, Sys2Proof.core, hs] using h
    | fault f => simp [Reaches, Host.Core.run, Sys2Proof.core, hs] at h
    | refused f => simp [Reaches, Host.Core.run, Sys2Proof.core, hs] at h

/-- The turns of TXU from TX_IDX to the end of the payload push the `n` bytes that are left and sum them. -/
theorem reaches_payloadSent (n : Nat) (s u : State) (ag : List Move) (hag : s.agenda = List.replicate n .txu ++ ag)
    (hst : s.tx.st = if s.tx.idx = s.tx.plen then .cks else .pay)
    (hn : s.tx.idx.toNat + n = s.tx.plen.toNat) (hp : s.tx.plen.toNat ≤ 254)
    (hu : u = { s with
      agenda := ag
      txs := s.txs ++ Memory.readFrom s.tx.pay s.tx.idx.toNat n
      tx := { s.tx with
        acc := accumulate s.tx.acc (Memory.readFrom s.tx.pay s.tx.idx.toNat n)
        idx := s.tx.plen
        st := .cks } }) :
    Reaches n s u := by
  induction n generalizing s with
  | zero =>
    have hidx : s.tx.idx = s.tx.plen := BitVec.eq_of_toNat_eq hn
    rw [if_pos hidx] at hst
    have htx : { s.tx with idx := s.tx.plen, st := .cks } = s.tx := by
      rw [← hst]; exact congrArg (fun i => { s.tx with idx := i }) hidx.symm
    have hag : s.agenda = ag := hag
    simp only [Reaches, Host.Core.run, hu, Memory.readFrom, accumulate, List.append_nil, htx, ← hag]
  | succ n ih =>
    have hi : s.tx.idx.toNat < s.tx.plen.toNat := by omega
    have hne : s.tx.idx ≠ s.tx.plen := fun e => by rw [e] at hi; omega
    rw [if_neg hne] at hst
    have hsucc := succ_toNat_of_lt hi
    refine Reaches.cons ((step_txu (ag := List.replicate n .txu ++ ag) hag).trans (txuTurn_pay hst hi hp)) ?_
    refine ih _ rfl rfl ?_ hp ?_
    · simp only [hsucc]; omega
    · simp only [hu, hsucc, Memory.readFrom, accumulate, List.append_assoc, List.singleton_append]

/-- From T_HDR, TX_PLEN + 4 turns of TXU push the covered bytes and the byte that closes their sum, and end in
TXDONE (R142 to R146). -/
theorem reaches_frameSent (s : State) (ag : List Move)
    (hag : s.agenda = List.replicate (s.tx.plen.toNat + 4) .txu ++ ag) (hst : s.tx.st = .hdr) (hi : s.tx.idx = 0)
    (hp : s.tx.plen.toNat ≤ 254) (covered : List Byte)
    (hc : covered = Config.hdrCmd :: lengthByte s.tx.plen :: s.tx.cmd :: Memory.readFrom s.tx.pay 0 s.tx.plen.toNat) :
    Reaches (s.tx.plen.toNat + 4) s { s with
      agenda := ag
      txs := s.txs ++ covered ++ [closingByte (accumulate s.tx.acc covered)]
      trace := s.trace ++ [.txdone]
      tx := { s.tx with acc := accumulate s.tx.acc covered, idx := s.tx.plen, st := .idle } } := by
  have hag' : s.agenda = .txu :: .txu :: .txu :: (List.replicate s.tx.plen.toNat .txu ++ .txu :: ag) := by
    rw [hag, show s.tx.plen.toNat + 4 = 1 + 1 + 1 + (s.tx.plen.toNat + 1) by omega]
    simp [List.replicate_add]
  subst hc
  rw [show s.tx.plen.toNat + 4 = s.tx.plen.toNat + 1 + 1 + 1 + 1 by omega]
  refine Reaches.cons ((step_txu hag').trans (txuTurn_hdr hst)) ?_
  refine Reaches.cons ((step_txu rfl).trans (txuTurn_len rfl hp)) ?_
  refine Reaches.cons ((step_txu rfl).trans (txuTurn_cmd rfl)) ?_
  have hz : s.tx.plen = 0 ↔ s.tx.idx = s.tx.plen := by rw [hi, eq_comm]
  refine Reaches.trans (reaches_payloadSent s.tx.plen.toNat _ _ (.txu :: ag) rfl ?_ ?_ hp rfl) ?_
  · simp only [State.sendCovered_tx, hz]
  · simp [hi]
  · refine Reaches.cons ((step_txu rfl).trans (txuTurn_cks rfl)) ?_
    simp [Reaches, Host.Core.run, hi, accumulate]

/-- `accumulate` from 0 closes a byte sequence with its checksum (R133, R146). -/
theorem closingByte_accumulate (bs : List Byte) : closingByte (accumulate 0 bs) = cks8 bs :=
  closingByte_eq_cks8 _ _ (by simp [accumulate_toNat])

/-- The frame of an accepted ENC(cmd, pay), pushed by the len(pay) + 4 turns of TXU that follow (R147). -/
theorem reaches_frame (s : State) (cmd : Byte) (pay : List Byte) (ag : List Move) (hp : pay.length ≤ 254)
    (hm : Memory.wf s.tx.pay = true) :
    Reaches (pay.length + 4) { s.latchCommand cmd pay with agenda := List.replicate (pay.length + 4) .txu ++ ag }
      { s with
        agenda := ag
        txs := s.txs ++ frame cmd pay
        trace := s.trace ++ [.txdone]
        tx := { st := .idle, cmd := cmd, plen := BitVec.ofNat 8 pay.length, pay := Memory.writeFrom s.tx.pay 0 pay,
                idx := BitVec.ofNat 8 pay.length, acc := accumulate 0 (framePre cmd pay) } } := by
  have hlen : (BitVec.ofNat 8 pay.length : Byte).toNat = pay.length := by
    rw [BitVec.toNat_ofNat]; omega
  have hread : Memory.readFrom (Memory.writeFrom s.tx.pay 0 pay) 0 pay.length = pay :=
    Memory.readFrom_writeFrom pay s.tx.pay 0 hm (by simp only [Config.bufferSize]; omega)
  have hrun := reaches_frameSent
    { s.latchCommand cmd pay with agenda := List.replicate (pay.length + 4) .txu ++ ag } ag
    (by simp only [State.latchCommand_tx, hlen]) rfl rfl (hlen.trans_le hp) (framePre cmd pay)
    (by simp only [State.latchCommand_tx, hlen, hread, framePre])
  simpa only [State.latchCommand, hlen, closingByte_accumulate, List.append_assoc, frame] using hrun

/-! ## The named commands -/

/-- An instruction that requests the frame of (cc, pay), and whose word is that frame without its checksum, emits
it. -/
theorem emitsFrame_of_requestFrame {i : Instr} {cc : Byte} {pay bytes : List Byte} (hp : pay.length ≤ 254)
    (hexec : ∀ s, exec i s = .next (s.requestFrame cc pay)) (henc : encode i = framePre cc pay)
    (hdec : decode .command (framePre cc pay) = .ok i) (hbytes : frame cc pay = bytes) :
    EmitsFrame i cc pay bytes := by
  have hword : bytes.dropLast = framePre cc pay := by rw [← hbytes, frame, List.dropLast_concat]
  have accepted : ∀ s : State, s.quiescent = true → exec i s = .next (s.latchCommand cc pay) := fun s hq => by
    rw [hexec, requestFrame_accepted cc pay hq hp]
  refine ⟨henc.trans hword.symm, hword ▸ hdec, fun s => ⟨accepted s, fun hq => ?refused, fun hq hm t ag ht => ?run⟩⟩
  case refused =>
    rw [hexec, requestFrame_refused cc pay (by simp [hq]), State.emit]
  case run =>
    cases (accepted s hq).symm.trans ht
    exact ⟨_, reaches_frame s cc pay ag hp hm, by rw [hbytes], rfl, rfl, rfl, rfl⟩

/-- SET_COEF's frame with its checksum as R153 writes it. -/
theorem frame_setCoef (c : Byte) :
    frame 0x08 [c] = [0x68, 0x02, 0x08, c, BitVec.ofNat 8 ((256 - (0x72 + c.toNat) % 256) % 256)] := by
  have hks : cks8 [0x68, 0x02, 0x08, c] = BitVec.ofNat 8 ((256 - (0x72 + c.toNat) % 256) % 256) := by
    apply BitVec.eq_of_toNat_eq
    have hsum : byteSum [0x68, 0x02, 0x08, c] = 0x72 + c.toNat := by
      simp
      omega
    rw [cks8_toNat, hsum, BitVec.toNat_ofNat, Nat.mod_mod]
  rw [← hks]
  rfl

/-- Settles O10: each named command requests the frame of its fixed operands, so it emits that frame
(`emitsFrame_of_requestFrame`); the bytes are evaluated, those of SET_COEF for every coefficient by `frame_setCoef`. -/
theorem namedCommandsEmitTheirFrames : Obligations.NamedCommandsEmitTheirFrames := by
  refine ⟨?startMeas, ?stopMeas, ?readSample, fun c => ?setCoef, ?readCoef, ?autosendOff, ?autosendOn⟩
  case setCoef =>
    exact emitsFrame_of_requestFrame (by simp) (fun _ => rfl) rfl rfl (frame_setCoef c)
  all_goals exact emitsFrame_of_requestFrame (by decide) (fun _ => rfl) rfl rfl (by decide)

end Sys2Proof.Machine
end

