-- ==== Sys2Proof/Proofs/Receive.lean ====
section
/-! PROOFS. The receive unit (42_decode.md R171 to R174, R176 to R178, R180, R181): the classification of header pairs,
the received rows as next states in R_H1, what a popped byte does in each state, and the statements about one step. -/

namespace Sys2Proof.Machine

variable {s : State} {h0 h1 b : Byte}

/-! ## The classification map (R101) -/

theorem decodeHeader_ack : decodeHeader 0xA5 0xA5 = .ack := rfl

theorem decodeHeader_nak : decodeHeader 0x96 0x96 = .nak := rfl

theorem decodeHeader_cdata (ll : Byte) : decodeHeader 0x40 ll = .cdata ll := by
  have hack : ¬((0x40 : Byte) = 0xA5 ∧ ll = 0xA5) := fun h => absurd h.1 (by decide)
  have hnak : ¬((0x40 : Byte) = 0x96 ∧ ll = 0x96) := fun h => absurd h.1 (by decide)
  exact (if_neg hack).trans (if_neg hnak)

theorem decodeHeader_sdata : decodeHeader 0x42 0x4D = .sdata := rfl

/-- A pair that is none of the four patterns takes the default row. -/
theorem decodeHeader_malformed (hack : ¬(h0 = 0xA5 ∧ h1 = 0xA5)) (hnak : ¬(h0 = 0x96 ∧ h1 = 0x96)) (hcdata : h0 ≠ 0x40)
    (hsdata : ¬(h0 = 0x42 ∧ h1 = 0x4D)) : decodeHeader h0 h1 = .malformed h0 h1 :=
  (if_neg hack).trans <| (if_neg hnak).trans <| (if_neg hcdata).trans (if_neg hsdata)

theorem legalHeader_eq_false_iff : legalHeader h0 h1 = false ↔
    ¬(h0 = 0xA5 ∧ h1 = 0xA5) ∧ ¬(h0 = 0x96 ∧ h1 = 0x96) ∧ h0 ≠ 0x40 ∧ ¬(h0 = 0x42 ∧ h1 = 0x4D) := by
  rw [← Bool.not_eq_true]
  simp only [legalHeader, Bool.or_eq_true, Bool.and_eq_true, beq_iff_eq, not_or, and_assoc, ne_eq]

theorem decodeHeader_of_not_legal (h : legalHeader h0 h1 = false) : decodeHeader h0 h1 = .malformed h0 h1 := by
  obtain ⟨hack, hnak, hcdata, hsdata⟩ := legalHeader_eq_false_iff.1 h
  exact decodeHeader_malformed hack hnak hcdata hsdata

/-! ## The received rows in R_H1 -/

theorem exec_ack (h : s.rx.st = .h1) : exec .ack s = .next (s.deliverAck .posack) := atSecondHeaderByte_eq h

theorem exec_nak (h : s.rx.st = .h1) : exec .nak s = .next (s.deliverAck .negack) := atSecondHeaderByte_eq h

theorem exec_sdata (h : s.rx.st = .h1) :
    exec .sdata s = .next { s with rx := { s.rx with acc := 143, rem := 28, drop := 2, st := .sbody } } :=
  atSecondHeaderByte_eq h

theorem exec_malformed (h : s.rx.st = .h1) : exec (.malformed h0 h1) s = .next (s.rxFlush.raise .malformed) :=
  atSecondHeaderByte_eq h

/-! ## A popped byte, by state -/

theorem rxuByte_h0 (h : s.rx.st = .h0) : rxuByte b s = .next { s with rx := { s.rx with h0 := b, st := .h1 } } := by
  rw [rxuByte, h]; rfl

theorem rxuByte_h1 (h : s.rx.st = .h1) : rxuByte b s = exec (decodeHeader s.rx.h0 b) s := by
  rw [rxuByte, h]; rfl

theorem rxuByte_cpay (h : s.rx.st = .cpay) : rxuByte b s = takeBodyByte b .ccks s := by
  rw [rxuByte, h]; rfl

theorem rxuByte_sbody (h : s.rx.st = .sbody) : rxuByte b s = takeBodyByte b .sckh s := by
  rw [rxuByte, h]; rfl

theorem rxuByte_sckh (h : s.rx.st = .sckh) : rxuByte b s = .next { s with rx := { s.rx with ckh := b, st := .sckl } } := by
  rw [rxuByte, h]; rfl

theorem timeoutTurn_taken (hst : s.rx.st ≠ .idle) (hq : s.rxq = []) : timeoutTurn s = .next (s.raise .timeout) :=
  if_pos ⟨hst, hq⟩

/-! ## A payload or body byte, in numbers -/

section BodyByte

variable {st : RxSt} (after : RxSt)

/-- Where RX_REM is at least 1 (R29), counting it down does not wrap, and the last byte is the one that finds 1. -/
theorem rem_countdown {r : Byte} (h : 1 ≤ r.toNat) :
    r ≠ 0 ∧ r - 1 = BitVec.ofNat 8 (r.toNat - 1) ∧ (r = 1 ↔ r.toNat - 1 = 0) :=
  ⟨byte_ne_zero.2 h, by bv_omega, by bv_omega⟩

/-- A byte that comes while RX_DROP is above 0 is summed and not stored. -/
theorem takeBodyByte_dropped (hst : s.rx.st = st) (hrem : 1 ≤ s.rx.rem.toNat) (hdrop : 0 < s.rx.drop.toNat) :
    takeBodyByte b after s = .next { s with rx := { s.rx with
      acc := BitVec.ofNat 16 (s.rx.acc.toNat + b.toNat)
      drop := BitVec.ofNat 2 (s.rx.drop.toNat - 1)
      rem := BitVec.ofNat 8 (s.rx.rem.toNat - 1)
      st := if s.rx.rem.toNat - 1 = 0 then after else st } } := by
  obtain ⟨hrem0, hcount, hlast⟩ := rem_countdown hrem
  have hdrop0 : s.rx.drop ≠ 0 := by bv_omega
  have hdropped : s.rx.drop - 1 = BitVec.ofNat 2 (s.rx.drop.toNat - 1) := by bv_omega
  rw [takeBodyByte, if_neg hrem0]
  refine (if_pos hdrop0).trans ?_
  simp only [accAdd_ofNat, hcount, hlast, hst, hdropped]

/-- A byte that comes with RX_DROP at 0 is summed and stored at RX_LEN. -/
theorem takeBodyByte_stored (hst : s.rx.st = st) (hrem : 1 ≤ s.rx.rem.toNat) (hdrop : s.rx.drop.toNat = 0)
    (hlen : s.rx.len.toNat < 254) (hwf : Memory.wf s.rx.buf = true) :
    ∃ buf, takeBodyByte b after s = .next { s with rx := { s.rx with
        acc := BitVec.ofNat 16 (s.rx.acc.toNat + b.toNat)
        buf := buf
        len := BitVec.ofNat 8 (s.rx.len.toNat + 1)
        rem := BitVec.ofNat 8 (s.rx.rem.toNat - 1)
        st := if s.rx.rem.toNat - 1 = 0 then after else st } } ∧
      Memory.wf buf = true ∧ Memory.read buf s.rx.len.toNat = b ∧
      ∀ a, a ≠ s.rx.len.toNat → Memory.read buf a = Memory.read s.rx.buf a := by
  obtain ⟨hrem0, hcount, hlast⟩ := rem_countdown hrem
  have hdrop0 : ¬s.rx.drop ≠ 0 := not_not.2 (BitVec.eq_of_toNat_eq hdrop)
  have hnext : s.rx.len + 1 = BitVec.ofNat 8 (s.rx.len.toNat + 1) := by bv_omega
  refine ⟨Memory.write s.rx.buf s.rx.len.toNat b, ?_, Memory.wf_write _ _ b hwf hlen,
    Memory.read_write_same _ _ b (Memory.wf_rising hwf), fun a ha => Memory.read_write_other _ _ a b ha⟩
  rw [takeBodyByte, if_neg hrem0]
  refine (if_neg hdrop0).trans ((if_pos hlen).trans ?_)
  simp only [accAdd_ofNat, hcount, hlast, hst, hnext]

end BodyByte

/-! ## The statements -/

/-- Settles O22: the popped byte runs the row its pair decodes to (`step_rxu`, `rxuByte_h1`), and each class of pair
has its equation of the decoder. -/
theorem secondHeaderByteRunsTheDecodedRow : Obligations.SecondHeaderByteRunsTheDecodedRow := by
  intro s ag b q hag hst hq
  refine ⟨(step_rxu hag hq).trans (rxuByte_h1 hst), ?ack, ?nak, ?cdata, ?sdata, decodeHeader_malformed⟩
  case ack => rintro ⟨hh, hb⟩; rw [hh, hb, decodeHeader_ack]
  case nak => rintro ⟨hh, hb⟩; rw [hh, hb, decodeHeader_nak]
  case cdata => intro hh; rw [hh, decodeHeader_cdata]
  case sdata => rintro ⟨hh, hb⟩; rw [hh, hb, decodeHeader_sdata]

/-- Settles O27: `raise` clears RX_LEN after the one flush, which is no change where RX_LEN is 0 already. -/
theorem malformedHeaderFlushesOnce : Obligations.MalformedHeaderFlushesOnce := by
  refine ⟨fun h0 h1 s hst hlen => ?_, fun h0 h1 => decodeHeader_of_not_legal⟩
  rw [exec_malformed hst, State.raise, State.rxFlush_rx, ← hlen]
  rfl

/-- Settles O29: in R_CPAY the popped byte is taken with R_CCKS to follow, and is dropped or stored by RX_DROP. -/
theorem payloadByteIsSummedAndKept : Obligations.PayloadByteIsSummedAndKept := by
  intro s ag b q hag hst hq hrem
  have hturn := (step_rxu hag hq).trans (rxuByte_cpay hst)
  refine ⟨fun hdrop => hturn.trans (takeBodyByte_dropped .ccks hst hrem hdrop), fun hdrop hlen hwf => ?_⟩
  rw [hturn]
  exact takeBodyByte_stored .ccks hst hrem hdrop hlen hwf

/-- Settles O31: as O29, in R_SBODY with R_SCKH to follow. -/
theorem bodyByteIsSummedAndKept : Obligations.BodyByteIsSummedAndKept := by
  intro s ag b q hag hst hq hrem
  have hturn := (step_rxu hag hq).trans (rxuByte_sbody hst)
  refine ⟨fun hdrop => hturn.trans (takeBodyByte_dropped .sckh hst hrem hdrop), fun hdrop hlen hwf => ?_⟩
  rw [hturn]
  exact takeBodyByte_stored .sckh hst hrem hdrop hlen hwf

/-- Settles O21: the turn in R_H0, and the timeout that R_H1 takes on an empty queue. -/
theorem firstHeaderByteIsOnlyHeld : Obligations.FirstHeaderByteIsOnlyHeld := by
  refine ⟨fun s ag b q hag hst hq => (step_rxu hag hq).trans (rxuByte_h0 hst), fun s ag hag hst hq => ?_⟩
  exact (step_cons hag).trans (timeoutTurn_taken (by simp [hst]) hq)

/-- Settles O24: both rows in R_H1; a pair that begins with A5 or 96 and repeats it in no second byte is none of the
four patterns. -/
theorem acknowledgesAreDelivered : Obligations.AcknowledgesAreDelivered := by
  refine ⟨fun s hst => ⟨exec_ack hst, exec_nak hst⟩, decodeHeader_ack, decodeHeader_nak, fun b hb => ?_, fun b hb => ?_⟩
  · exact decodeHeader_malformed (fun h => hb h.2) (by simp) (by decide) (by simp)
  · exact decodeHeader_malformed (by simp) (fun h => hb h.2) (by decide) (by simp)

/-- Settles O26: the row in R_H1; a pair that begins with 42 can only be SDATA's. -/
theorem sdataFrameStarts : Obligations.SdataFrameStarts := by
  refine ⟨fun s hst => exec_sdata hst, decodeHeader_sdata, fun b hb => ?_⟩
  exact decodeHeader_malformed (by simp) (by simp) (by decide) (fun h => hb h.2)

/-- Settles O32: the turn in R_SCKH. -/
theorem checksumHighByteIsHeld : Obligations.ChecksumHighByteIsHeld := by
  intro s ag b q hag hst hq
  exact (step_rxu hag hq).trans (rxuByte_sckh hst)

end Sys2Proof.Machine
end

