-- ==== Sys2Proof/Proofs/Requests.lean ====
section
/-! PROOFS. What HOST asks of the block and what it gets (41_encode.md R141, R147, R149, 42_decode.md R170,
43_session_host.md R220 to R230), ENV's moves on the streams (00_scope.md R11, 20_memory.md R72) and reset
(70_reset_and_hazards.md R300). -/

namespace Sys2Proof.Machine

variable {s : State}

/-! ## Requests for a frame -/

/-- Every command row is a request for one frame, with operands of its own (R147, R150 to R156). -/
theorem exec_command {i : Instr} (hi : i.space = .command) : ∃ c p, ∀ s, exec i s = .next (s.requestFrame c p) := by
  cases i with
  | cks8 | cks16 | enc | dec | ack | nak | cdata | sdata | malformed => cases hi
  | _ => exact ⟨_, _, fun _ => rfl⟩

theorem quiescent_of_idle (htx : s.tx.st = .idle) (hrx : s.rx.st = .idle) : s.quiescent = true :=
  State.quiescent_iff.2 ⟨htx, hrx⟩

theorem not_quiescent_of_busy (h : s.tx.st ≠ .idle ∨ s.rx.st ≠ .idle) : ¬s.quiescent = true := by
  rw [State.quiescent_iff]
  tauto

/-- The length of a payload ENC accepts fits TX_PLEN. -/
theorem ofNat_length_toNat {pay : List Byte} (h : pay.length ≤ 254) :
    (BitVec.ofNat 8 pay.length : Byte).toNat = pay.length := by
  rw [BitVec.toNat_ofNat]
  omega

/-- Settles O7: the request is accepted (`requestFrame_accepted`), and the run written from index 0 reads as the payload
inside and as before outside. -/
theorem quiescentBlockAcceptsEnc : Obligations.QuiescentBlockAcceptsEnc := by
  intro cmd pay s htx hrx hp hwf
  have hroom : 0 + pay.length ≤ Config.bufferSize := by simpa using hp
  refine ⟨Memory.writeFrom s.tx.pay 0 pay, ?_, ofNat_length_toNat hp, Memory.wf_writeFrom pay _ 0 hwf hroom, fun i hi => ?_,
    fun a ha => Memory.read_writeFrom_outside pay _ 0 a (.inr (by omega))⟩
  · exact congrArg Host.Outcome.next (requestFrame_accepted cmd pay (quiescent_of_idle htx hrx) hp)
  · simpa using Memory.read_writeFrom_inside pay s.tx.pay 0 i hwf hroom hi

/-- Settles O8: the condition of acceptance fails, so the request is refused; a command row is such a request. -/
theorem framesOutOfTurnAreRefused : Obligations.FramesOutOfTurnAreRefused := by
  refine fun s => ⟨fun cmd pay h => congrArg Host.Outcome.next (requestFrame_refused cmd pay ?_), fun hbusy i hi => ?_⟩
  · rintro ⟨hquiet, hlen⟩
    obtain ⟨htx, hrx⟩ := State.quiescent_iff.1 hquiet
    have hlen : pay.length ≤ 254 := hlen
    rcases h with h | h | h
    · exact h htx
    · exact h hrx
    · omega
  · obtain ⟨c, p, hexec⟩ := exec_command hi
    rw [hexec, requestFrame_refused c p fun h => not_quiescent_of_busy hbusy h.1]
    rfl

/-- Settles O9: CMD is the request of its code and payload; a well-formed word has LL - 1 payload bytes, which is at most
254. -/
theorem genericCommandIsAcceptedLikeEnc : Obligations.GenericCommandIsAcceptedLikeEnc := by
  intro ll cc pay s hwf htx hrx
  simp only [Instr.wellFormed, Bool.and_eq_true, decide_eq_true_eq] at hwf
  have hlen : pay.length = ll.toNat - 1 := hwf.1
  have hp : pay.length ≤ 254 := by omega
  exact ⟨congrArg Host.Outcome.next (requestFrame_accepted cc pay (quiescent_of_idle htx hrx) hp), rfl,
    (ofNat_length_toNat hp).trans hlen⟩

/-! ## Requests for a decode -/

/-- Settles O11: DEC asks for both units idle. -/
theorem decIsAcceptedOrRefused : Obligations.DecIsAcceptedOrRefused :=
  fun _ => ⟨fun htx hrx => if_pos (quiescent_of_idle htx hrx), fun hbusy => if_neg (not_quiescent_of_busy hbusy)⟩

/-! ## HOST's acts -/

theorem runRequest_ok {r : Except DecodeError Instr} {i : Instr} (h : r = .ok i) : runRequest r s = exec i s := by
  rw [h]
  rfl

theorem runRequest_error {r : Except DecodeError Instr} {e : DecodeError} (h : r = .error e) :
    runRequest r s = .refused (.badRequest e) := by
  rw [h]
  rfl

/-- Settles O49: HOST's turn runs what its front act decodes to. -/
theorem stepRunsTheDecodedRequest : Obligations.StepRunsTheDecodedRequest := by
  intro s ag hq bytes hag
  exact ⟨fun hhost => ⟨fun i h => (step_host hag hhost).trans (runRequest_ok h),
      fun e h => (step_host hag hhost).trans (runRequest_error h)⟩,
    fun hhost => ⟨fun i h => (step_host hag hhost).trans (runRequest_ok h),
      fun e h => (step_host hag hhost).trans (runRequest_error h)⟩⟩

/-- Settles O46: a flush and a wait ask for a quiescent block, and stay at the front of HOST's program while it is busy;
the settling wait asks for nothing. -/
theorem hostWaitsForQuiescence : Obligations.HostWaitsForQuiescence := by
  intro s ag hq hag
  refine ⟨fun hhost hquiet => (step_host hag hhost).trans (if_pos hquiet),
    fun hhost hquiet => (step_host hag hhost).trans (if_pos hquiet), fun hhost hbusy => ?_,
    fun hhost => step_host hag hhost⟩
  have hbusy : ¬s.quiescent = true := Bool.not_eq_true _ ▸ hbusy
  obtain hhost | hhost := hhost <;> exact (step_host hag hhost).trans (if_neg hbusy)

/-- Settles O48: the driver's bounds are its own test; the rules' examples are evaluated. -/
theorem hostBoundsAndSampleFields : Obligations.HostBoundsAndSampleFields := by
  refine ⟨fun c => ⟨fun h => if_neg (by omega), fun hlow hhigh => if_pos ⟨hlow, hhigh⟩⟩, ?_⟩
  exact ⟨by decide, by decide, by decide⟩

/-! ## ENV's moves and reset -/

/-- Settles O45: the three turns, with the choice inside the field it is about. -/
theorem appendTakeAndLossMovesTouchOnlyTheStreams : Obligations.AppendTakeAndLossMovesTouchOnlyTheStreams := by
  refine fun s ag => ⟨fun b hag => step_cons hag, fun hag => ?_, fun k hag => ?_⟩
  · rw [step_cons hag, takeTurn]
    by_cases hmore : s.txTaken < s.txs.length
    · simp only [if_pos hmore]
    · simp only [if_neg hmore]
  · rw [step_cons hag, takeTurn]
    by_cases hlossy : Config.rxqLossy = true
    · simp only [if_pos hlossy]
    · simp only [if_neg hlossy]

/-- Settles O54: the reset values are evaluated; an empty buffer reads as 0 everywhere. -/
theorem resetLeavesTheBlockQuiescentAndZero : Obligations.ResetLeavesTheBlockQuiescentAndZero :=
  ⟨rfl, rfl, rfl, rfl, rfl, Memory.read_nil, rfl, rfl, rfl, rfl, rfl, rfl, rfl, Memory.read_nil, rfl, rfl, rfl⟩

/-- Settles O55: the turn of a reset. -/
theorem blockResetTouchesOnlyTheUnits : Obligations.BlockResetTouchesOnlyTheUnits :=
  fun _ _ hag => step_cons hag

end Sys2Proof.Machine
end

