-- ==== Sys2Proof/Proofs/Codec.lean ====
section
/-! PROOFS. The decoder and the encoder (30_encoding.md R90 to R111): each undoes the other in all three spaces, and the
opcode table's selection by mask, match and priority agrees with the decoder. -/

namespace Sys2Proof

variable {ll cc h0 h1 : Byte} {pay : List Byte}

/-! ## Command rows -/

/-- Leading bytes of no named row are the generic command's (R103, R111). -/
theorem commandRow_of_not_named (h : namedCommand ll cc = false) : commandRow ll cc pay = .cmd ll cc pay := by
  simp only [namedCommand, Bool.or_eq_false_iff, Bool.and_eq_false_iff, beq_eq_false_iff_ne] at h
  obtain ⟨hone, hcoef⟩ := h
  unfold commandRow
  split_ifs <;> simp_all

/-- The row of a command frame is well formed and has the frame's bytes as its word. -/
theorem commandRow_spec (hlen : pay.length = ll.toNat - 1) :
    (commandRow ll cc pay).wellFormed = true ∧ encode (commandRow ll cc pay) = Config.hdrCmd :: ll :: cc :: pay := by
  by_cases hnamed : namedCommand ll cc = true
  case neg =>
    rw [Bool.not_eq_true] at hnamed
    rw [commandRow_of_not_named hnamed]
    exact ⟨by simp [Instr.wellFormed, hlen, hnamed], rfl⟩
  simp only [namedCommand, Bool.or_eq_true, Bool.and_eq_true, beq_iff_eq] at hnamed
  obtain ⟨rfl, hcc⟩ | ⟨rfl, rfl⟩ := hnamed
  · obtain rfl : pay = [] := List.length_eq_zero_iff.1 hlen
    obtain ((((rfl | rfl) | rfl) | rfl) | rfl) | rfl := hcc <;> exact ⟨rfl, rfl⟩
  · obtain ⟨c, rfl⟩ := List.length_eq_one_iff.1 hlen
    exact ⟨rfl, rfl⟩

/-! ## Encode of decode, by space -/

theorem decodeHostop_spec {bytes : List Byte} {i : Instr} (h : decodeHostop bytes = .ok i) :
    i.wellFormed = true ∧ encode i = bytes := by
  cases bytes with
  | nil => cases h
  | cons o args =>
    simp only [decodeHostop] at h
    split_ifs at h with h0 h1 h2 h3
    · cases h; exact ⟨rfl, by rw [h0]; rfl⟩
    · cases h; exact ⟨rfl, by rw [h1]; rfl⟩
    · cases args with
      | nil => cases h
      | cons cmd pay => cases h; exact ⟨rfl, by rw [h2]; rfl⟩
    · cases args with
      | nil => cases h; exact ⟨rfl, by rw [h3]; rfl⟩
      | cons a args => cases h

theorem decodeCommand_spec {bytes : List Byte} {i : Instr} (h : decodeCommand bytes = .ok i) :
    i.wellFormed = true ∧ encode i = bytes := by
  match bytes, h with
  | h :: ll :: cc :: pay, hdec =>
    rw [decodeCommand] at hdec
    split_ifs at hdec with hh hlen
    cases hdec
    rw [not_not.1 hh]
    exact commandRow_spec (not_not.1 hlen)

/-- The received kind of a pair is well formed and has the pair as its word: no pair has two kinds (R101, R105). -/
theorem decodeHeader_spec (h0 h1 : Byte) :
    (decodeHeader h0 h1).wellFormed = true ∧ encode (decodeHeader h0 h1) = [h0, h1] := by
  rw [decodeHeader]
  split_ifs with hack hnak hcdata hsdata
  · exact ⟨rfl, by rw [hack.1, hack.2]; rfl⟩
  · exact ⟨rfl, by rw [hnak.1, hnak.2]; rfl⟩
  · exact ⟨rfl, by rw [hcdata]; rfl⟩
  · exact ⟨rfl, by rw [hsdata.1, hsdata.2]; rfl⟩
  · refine ⟨?_, rfl⟩
    rw [Instr.wellFormed, Machine.legalHeader_eq_false_iff.2 ⟨hack, hnak, hcdata, hsdata⟩, Bool.not_false]

theorem decode_spec {sp : Space} {bytes : List Byte} {i : Instr} (h : decode sp bytes = .ok i) :
    i.wellFormed = true ∧ encode i = bytes := by
  cases sp with
  | hostop => exact decodeHostop_spec h
  | command => exact decodeCommand_spec h
  | received =>
    match bytes, h with
    | [h0, h1], hdec => cases hdec; exact decodeHeader_spec h0 h1

/-! ## The opcode table -/

/-- The word of every well-formed instruction selects its own row: the family of Laws/PerInstr.lean, gathered. -/
theorem selectRow_encode (i : Instr) (h : i.wellFormed = true) : selectRow i.space (encode i) = some i.mnemonic := by
  cases i with
  | cmd ll cc pay => exact Laws.SelectsRow.cmd ll cc pay h
  | cdata ll => exact Laws.SelectsRow.cdata ll h
  | malformed h0 h1 => exact Laws.SelectsRow.malformed h0 h1 h
  | _ => rfl

/-! ## The statements -/

/-- Settles O50: the rows with fixed bytes are evaluated; the generic command is no named row, CDATA takes any length
byte, and a MALFORMED pair is none of the legal patterns. -/
theorem decodeOfEncodeIsTheInstruction : Obligations.DecodeOfEncodeIsTheInstruction := by
  intro i hwf
  cases i with
  | cmd ll cc pay =>
    simp only [Instr.wellFormed, Bool.and_eq_true, decide_eq_true_eq, Bool.not_eq_true'] at hwf
    obtain ⟨hlen, hnamed⟩ := hwf
    show decodeCommand (Config.hdrCmd :: ll :: cc :: pay) = _
    rw [decodeCommand, if_neg (not_not.2 rfl), if_neg (not_not.2 hlen), commandRow_of_not_named hnamed]
  | cdata ll => exact congrArg Except.ok (Machine.decodeHeader_cdata ll)
  | malformed h0 h1 =>
    simp only [Instr.wellFormed, Bool.not_eq_true'] at hwf
    exact congrArg Except.ok (Machine.decodeHeader_of_not_legal hwf)
  | _ => rfl

/-- Settles O51: one lemma for each space's decoder (`decode_spec`). -/
theorem encodeOfDecodeIsTheWord : Obligations.EncodeOfDecodeIsTheWord := by
  intro sp bytes i h
  obtain ⟨hwf, hword⟩ := decode_spec h
  exact ⟨hwf, Machine.space_of_decode h, hword⟩

/-- Settles O52: the bytes are the word of the decoded instruction (O51), and each word selects its row. -/
theorem decoderFollowsTheOpcodeTable : Obligations.DecoderFollowsTheOpcodeTable := by
  intro sp bytes i h
  obtain ⟨hwf, rfl, rfl⟩ := encodeOfDecodeIsTheWord sp bytes i h
  exact selectRow_encode i hwf

/-- Settles O23: a kind's pair is read off its word (`decodeHeader_spec`), and each pattern has its equation of the
decoder. -/
theorem headerMapIsTotalAndDisjoint : Obligations.HeaderMapIsTotalAndDisjoint := by
  intro h0 h1
  have word : ∀ {i}, decodeHeader h0 h1 = i → i.wellFormed = true ∧ encode i = [h0, h1] := by
    rintro _ rfl
    exact decodeHeader_spec h0 h1
  refine ⟨⟨fun h => ?_, ?_⟩, ⟨fun h => ?_, ?_⟩, fun ll => ⟨fun h => ?_, ?_⟩, ⟨fun h => ?_, ?_⟩,
    fun a b => ⟨fun h => ?_, ?_⟩, Machine.space_of_decode (sp := .received) (bytes := [h0, h1]) rfl⟩
  · cases (word h).2; exact ⟨rfl, rfl⟩
  · rintro ⟨rfl, rfl⟩; exact Machine.decodeHeader_ack
  · cases (word h).2; exact ⟨rfl, rfl⟩
  · rintro ⟨rfl, rfl⟩; exact Machine.decodeHeader_nak
  · cases (word h).2; exact ⟨rfl, rfl⟩
  · rintro ⟨rfl, rfl⟩; exact Machine.decodeHeader_cdata ll
  · cases (word h).2; exact ⟨rfl, rfl⟩
  · rintro ⟨rfl, rfl⟩; exact Machine.decodeHeader_sdata
  · obtain ⟨hwf, hword⟩ := word h
    cases hword
    exact ⟨by simpa [Instr.wellFormed] using hwf, rfl, rfl⟩
  · rintro ⟨hpair, rfl, rfl⟩; exact Machine.decodeHeader_of_not_legal hpair

/-- Settles O53: the words are evaluated. -/
theorem wordsOfTheTablesDecode : Obligations.WordsOfTheTablesDecode :=
  ⟨rfl, rfl, rfl, rfl, rfl, rfl, rfl, rfl, rfl, rfl, rfl⟩

/-- Settles O59: the four selects are evaluated for any operands; an operation byte above 3 is none of them. -/
theorem hostRequestsDecodeByOperationByte : Obligations.HostRequestsDecodeByOperationByte := by
  refine fun o cmd bytes => ⟨rfl, rfl, rfl, rfl, fun ho => ?_⟩
  have hne : ∀ k : Byte, k.toNat ≤ 3 → o ≠ k := by
    rintro _ hk rfl
    omega
  show decodeHostop (o :: bytes) = _
  simp only [decodeHostop]
  rw [if_neg (hne 0 (by decide)), if_neg (hne 1 (by decide)), if_neg (hne 2 (by decide)),
    if_neg (hne 3 (by decide))]

end Sys2Proof
end

