-- ==== Sys2Proof/Proofs/Frames.lean ====
section
/-! PROOFS. Frames as byte sequences (40_checksum.md R133 to R136, 41_encode.md R148, 42_decode.md R186): the derived forms
of the two checksums, the bounds of the covered sums, the shape of a command frame, and which changed bytes a checksum
shows. -/

namespace Sys2Proof.Machine

open Sys2Proof.Safety

/-! ## The derived forms of the checksums -/

theorem accumulate_zero_toNat (s : List Byte) : (accumulate 0 s).toNat = byteSum s % 65536 := by
  simp [accumulate_toNat]

/-- Settles O3: the accumulator holds the sum modulo 65536, which is a multiple of 256. -/
theorem accumulatorGivesBothChecksums : Obligations.AccumulatorGivesBothChecksums := by
  intro s
  have hacc := accumulate_zero_toNat s
  have hcks := cks8_toNat s
  exact ⟨BitVec.eq_of_toNat_eq (by rw [cks16_toNat, hacc]), by omega, by omega⟩

/-- Settles O4: both validation forms, and 256 divides 65536. -/
theorem checksumValidationForms : Obligations.ChecksumValidationForms := by
  refine ⟨fun k s => eq_comm.trans (cks8_eq_iff s k), fun w s => ?_, fun s => ?_⟩
  · rw [eq_comm, cks16_eq_iff, eq_comm]
  · have hcks := cks8_toNat s
    rw [cks16_toNat]
    omega

/-! ## Bounds of the covered sums -/

/-- Settles O6: each covered byte is at most 255, and the fixed header bytes are less. -/
theorem coveredSumsStayBelow65536 : Obligations.CoveredSumsStayBelow65536 := by
  refine ⟨fun cmd pay hp => ?_, fun ll p hp => ?_, fun d hd => ?_⟩
  · have hpay := byteSum_le pay
    have hcmd := cmd.isLt
    have hlen := (lengthByte (BitVec.ofNat 8 pay.length)).isLt
    simp only [framePre, byteSum_cons, show Config.hdrCmd.toNat = 0x68 from rfl]
    omega
  · have hsum := byteSum_le p
    have hll := ll.isLt
    simp only [byteSum_cons, show (0x40 : Byte).toNat = 0x40 from rfl]
    omega
  · have hsum := byteSum_le d
    simp only [byteSum_cons, show (0x42 : Byte).toNat = 0x42 from rfl, show (0x4D : Byte).toNat = 0x4D from rfl]
    omega

/-! ## The shape of a command frame -/

/-- A sequence with its sum complement behind it sums to a multiple of 256 (R134). -/
theorem byteSum_append_cks8 (s : List Byte) : byteSum (s ++ [cks8 s]) % 256 = 0 := by
  simpa using (cks8_eq_iff s (cks8 s)).1 rfl

theorem frame_length (cmd : Byte) (pay : List Byte) : (frame cmd pay).length = pay.length + 4 := by
  simp [frame, framePre]

/-- The operands stand in the frame: the command code at index 2, the payload up to the last byte. -/
theorem frame_operands (cmd : Byte) (pay : List Byte) :
    (frame cmd pay)[2]? = some cmd ∧ ((frame cmd pay).drop 3).dropLast = pay :=
  ⟨rfl, List.dropLast_concat⟩

/-- Settles O19: the frame is read off its definition, its sum is closed by `cks8`, and equal frames have equal operands
in the same places. -/
theorem emittedFrameShape : Obligations.EmittedFrameShape := by
  refine ⟨fun cmd pay hp => ?_, fun cmd cmd' pay pay' _ _ heq => ?_⟩
  · obtain ⟨hcmd, hpay⟩ := frame_operands cmd pay
    have hlen : (lengthByte (BitVec.ofNat 8 pay.length)).toNat = pay.length + 1 := by
      have hofNat := ofNat_length_toNat hp
      rw [lengthByte_toNat _ (by omega), hofNat]
    exact ⟨frame_length cmd pay, rfl, congrArg some hlen, hcmd, hpay, byteSum_append_cks8 _⟩
  · obtain ⟨hcmd, hpay⟩ := frame_operands cmd pay
    obtain ⟨hcmd', hpay'⟩ := frame_operands cmd' pay'
    rw [heq] at hcmd hpay
    exact ⟨Option.some.inj (hcmd.symm.trans hcmd'), hpay.symm.trans hpay'⟩

/-! ## A changed byte changes the checksum (R135) -/

/-- One byte replaced by another changes the sum modulo 256. -/
theorem byteSum_set_mod_ne (s : List Byte) (i : Nat) (hi : i < s.length) (b : Byte) (hb : b ≠ s[i]) :
    byteSum (s.set i b) % 256 ≠ byteSum s % 256 := by
  have hset := byteSum_set s i hi b
  have hlt := b.isLt
  have hlt' := s[i].isLt
  have hne : b.toNat ≠ s[i].toNat := fun e => hb (BitVec.eq_of_toNat_eq e)
  omega

theorem cks8_set_ne (s : List Byte) (i : Nat) (hi : i < s.length) (b : Byte) (hb : b ≠ s[i]) :
    cks8 s ≠ cks8 (s.set i b) := by
  have hne := byteSum_set_mod_ne s i hi b hb
  rw [ne_eq, ← BitVec.toNat_inj, cks8_toNat, cks8_toNat]
  omega

theorem cks16_set_ne (s : List Byte) (i : Nat) (hi : i < s.length) (b : Byte) (hb : b ≠ s[i]) :
    cks16 s ≠ cks16 (s.set i b) := by
  have hne := byteSum_set_mod_ne s i hi b hb
  rw [ne_eq, ← BitVec.toNat_inj, cks16_toNat, cks16_toNat]
  omega

/-- No second checksum byte closes the same sum. -/
theorem sumCloses_unique {acc : Word16} {k k' : Byte} (h : sumCloses acc k = true) (hne : k' ≠ k) :
    sumCloses acc k' = false := by
  have hlt := k.isLt
  have hlt' := k'.isLt
  have hne' : k'.toNat ≠ k.toNat := fun e => hne (BitVec.eq_of_toNat_eq e)
  simp only [sumCloses, decide_eq_true_eq, decide_eq_false_iff_not] at h ⊢
  omega

theorem bigEndian_inj {hi lo hi' lo' : Byte} (h : bigEndian hi lo = bigEndian hi' lo') : hi = hi' ∧ lo = lo' := by
  have hnat := congrArg BitVec.toNat h
  have hlt := lo.isLt
  have hlt' := lo'.isLt
  rw [bigEndian_toNat, bigEndian_toNat] at hnat
  exact ⟨BitVec.eq_of_toNat_eq (by omega), BitVec.eq_of_toNat_eq (by omega)⟩

/-- No second pair of checksum bytes equals the same sum. -/
theorem sumEquals_unique {acc : Word16} {hi lo hi' lo' : Byte} (h : sumEquals acc hi lo = true)
    (hne : (hi', lo') ≠ (hi, lo)) : sumEquals acc hi' lo' = false := by
  simp only [sumEquals, decide_eq_true_eq, decide_eq_false_iff_not] at h ⊢
  rintro rfl
  obtain ⟨rfl, rfl⟩ := bigEndian_inj h
  exact hne rfl

/-! ## The whole frames and their outcomes (R186) -/

/-- The outcome of a CDATA frame: the sum of all its bytes tells (R179). -/
def cdataOutcome (ll : Byte) (p : List Byte) (k : Byte) : Event :=
  if byteSum (0x40 :: ll :: (p ++ [k])) % 256 = 0 then .resp .data (p.drop 1) else .err .checksum

/-- The outcome of an SDATA frame: the received value and the sum of the bytes before it tell (R182). -/
def sdataOutcome (d : List Byte) (hi lo : Byte) : Event :=
  if hi.toNat * 256 + lo.toNat = byteSum (0x42 :: 0x4D :: d) then .resp .data (d.drop 2) else .err .checksum

/-- The whole frames and malformed pairs, cut at their checksum, each with its outcome. -/
inductive WholeFrame : List Byte → Event → Prop
  | ack : WholeFrame [0xA5, 0xA5] (.resp .posack [])
  | nak : WholeFrame [0x96, 0x96] (.resp .negack [])
  | cdata (ll : Byte) (p : List Byte) (k : Byte) (len : p.length = ll.toNat) :
      WholeFrame (0x40 :: ll :: (p ++ [k])) (cdataOutcome ll p k)
  | sdata (d : List Byte) (hi lo : Byte) (len : d.length = 28) :
      WholeFrame (0x42 :: 0x4D :: (d ++ [hi, lo])) (sdataOutcome d hi lo)
  | malformed (h0 h1 : Byte) (pair : legalHeader h0 h1 = false) : WholeFrame [h0, h1] (.err .malformed)

/-- The bytes an SDATA checksum covers do not wrap its accumulator (R136). -/
theorem sdata_sum_lt {d : List Byte} (h : d.length = 28) : byteSum (0x42 :: 0x4D :: d) < 65536 := by
  have hle := coveredSumsStayBelow65536.2.2 d h
  omega

theorem exists_append_singleton {l : List Byte} {n : Nat} (h : l.length = n + 1) :
    ∃ p k, l = p ++ [k] ∧ p.length = n := by
  have hne : l ≠ [] := List.ne_nil_of_length_eq_add_one h
  exact ⟨l.dropLast, l.getLast hne, (List.dropLast_append_getLast hne).symm, by rw [List.length_dropLast, h]; rfl⟩

theorem frameOutcome_cdata {ll : Byte} {p : List Byte} (k : Byte) (h : p.length = ll.toNat) :
    frameOutcome (0x40 :: ll :: (p ++ [k])) = some (cdataOutcome ll p k) := by
  have htest : k = cks8 (0x40 :: ll :: p) ↔ byteSum (0x40 :: ll :: (p ++ [k])) % 256 = 0 := by
    rw [eq_comm, cks8_eq_iff]
    simp only [byteSum_cons, byteSum_append, byteSum_nil, Nat.add_zero, Nat.add_assoc]
  have hlen : (p ++ [k]).length = ll.toNat + 1 := by rw [List.length_append, h]; rfl
  have htake : (p ++ [k]).take ll.toNat = p := by rw [← h, List.take_left]
  have hlast : (p ++ [k]).getD ll.toNat 0 = k := by rw [← h]; simp
  simp only [frameOutcome, decodeHeader_cdata, if_pos hlen, htake, hlast, htest, cdataOutcome, apply_ite some]

theorem frameOutcome_sdata {d : List Byte} (hi lo : Byte) (h : d.length = 28) :
    frameOutcome (0x42 :: 0x4D :: (d ++ [hi, lo])) = some (sdataOutcome d hi lo) := by
  have htest : bigEndian hi lo = cks16 (0x42 :: 0x4D :: d) ↔ hi.toNat * 256 + lo.toNat = byteSum (0x42 :: 0x4D :: d) := by
    rw [← BitVec.toNat_inj, bigEndian_toNat, cks16_toNat_of_lt _ (sdata_sum_lt h)]
  have hlen : (d ++ [hi, lo]).length = 30 := by rw [List.length_append, h]; rfl
  have htake : (d ++ [hi, lo]).take 28 = d := by rw [← h, List.take_left]
  have hhigh : (d ++ [hi, lo]).getD 28 0 = hi := by rw [← h]; simp
  have hlow : (d ++ [hi, lo]).getD 29 0 = lo := by simp [h]
  simp only [frameOutcome, decodeHeader_sdata, if_pos hlen, htake, hhigh, hlow, htest, sdataOutcome, apply_ite some]

theorem wholeFrame_of_frameOutcome {bytes : List Byte} {e : Event} (h : frameOutcome bytes = some e) :
    WholeFrame bytes e := by
  match bytes, h with
  | h0 :: h1 :: rest, h =>
    obtain ⟨hwf, hword⟩ := decodeHeader_spec h0 h1
    have hout := h
    simp only [frameOutcome] at h
    split at h
    case h_6 => cases h
    all_goals
      rename_i hdec
      rw [hdec] at hword hwf
      cases hword
    case h_3 =>
      have hlen : rest.length = h1.toNat + 1 := by
        by_contra hne
        rw [if_neg hne] at h
        cases h
      obtain ⟨p, k, rfl, hp⟩ := exists_append_singleton hlen
      cases (frameOutcome_cdata k hp).symm.trans hout
      exact .cdata h1 p k hp
    case h_4 =>
      have hlen : rest.length = 30 := by
        by_contra hne
        rw [if_neg hne] at h
        cases h
      obtain ⟨p, lo, rfl, hp⟩ := exists_append_singleton hlen
      obtain ⟨d, hi, rfl, hd⟩ := exists_append_singleton hp
      rw [List.append_assoc] at hout ⊢
      cases (frameOutcome_sdata hi lo hd).symm.trans hout
      exact .sdata d hi lo hd
    all_goals
      split_ifs at h with hrest
      cases h
      subst hrest
    · exact .ack
    · exact .nak
    · exact .malformed h0 h1 (by simpa [Instr.wellFormed] using hwf)

theorem frameOutcome_iff {bytes : List Byte} {e : Event} : frameOutcome bytes = some e ↔ WholeFrame bytes e := by
  refine ⟨wholeFrame_of_frameOutcome, fun h => ?_⟩
  cases h with
  | ack => rfl
  | nak => rfl
  | cdata ll p k len => exact frameOutcome_cdata k len
  | sdata d hi lo len => exact frameOutcome_sdata hi lo len
  | malformed h0 h1 pair => simp only [frameOutcome, decodeHeader_of_not_legal pair, if_true]

/-! ## A changed byte behind the header -/

/-- A CDATA frame with one byte behind LL replaced is another frame whose sum is no multiple of 256 (R135 (2)). -/
theorem frameOutcome_cdata_set {ll : Byte} {p payload : List Byte} {k b : Byte} {i : Nat} (hp : p.length = ll.toNat)
    (hgood : cdataOutcome ll p k = .resp .data payload) (hi : i < (p ++ [k]).length) (hb : b ≠ (p ++ [k])[i]) :
    frameOutcome (0x40 :: ll :: (p ++ [k]).set i b) = some (.err .checksum) := by
  have hsum : byteSum (0x40 :: ll :: (p ++ [k])) % 256 = 0 := by
    by_contra hne
    rw [cdataOutcome, if_neg hne] at hgood
    cases hgood
  have hne := byteSum_set_mod_ne (0x40 :: ll :: (p ++ [k])) (i + 2) (by simpa using hi) b hb
  simp only [List.set_cons_succ, hsum] at hne
  obtain ⟨p', k', hset, hp'⟩ := exists_append_singleton (l := (p ++ [k]).set i b) (n := ll.toNat) (by simp [hp])
  rw [hset] at hne ⊢
  rw [frameOutcome_cdata k' hp', cdataOutcome, if_neg hne]

/-- An SDATA frame with one body byte replaced has another sum, with a checksum byte replaced another received value
(R135 (3)). -/
theorem frameOutcome_sdata_set {d payload : List Byte} {hi lo b : Byte} {i : Nat} (hd : d.length = 28)
    (hgood : sdataOutcome d hi lo = .resp .data payload) (hlt : i < (d ++ [hi, lo]).length)
    (hb : b ≠ (d ++ [hi, lo])[i]) :
    frameOutcome (0x42 :: 0x4D :: (d ++ [hi, lo]).set i b) = some (.err .checksum) := by
  have hsum : hi.toNat * 256 + lo.toNat = byteSum (0x42 :: 0x4D :: d) := by
    by_contra hne
    rw [sdataOutcome, if_neg hne] at hgood
    cases hgood
  by_cases hbody : i < d.length
  · have hb' : b ≠ d[i] := by rwa [List.getElem_append_left hbody] at hb
    have hne := byteSum_set_mod_ne (0x42 :: 0x4D :: d) (i + 2) (by simpa using hbody) b hb'
    simp only [List.set_cons_succ] at hne
    rw [List.set_append_left _ _ hbody, frameOutcome_sdata hi lo (by simpa using hd), sdataOutcome, if_neg]
    exact fun e => hne (by rw [← e, hsum])
  · have hcks : i = 28 ∨ i = 29 := by
      simp only [List.length_append, List.length_cons, List.length_nil] at hlt
      omega
    rw [List.set_append_right _ _ (Nat.le_of_not_lt hbody), hd]
    have hlo := lo.isLt
    have hb256 := b.isLt
    obtain rfl | rfl := hcks
    · have hval : b ≠ hi := by simpa [List.getElem_append_right, hd] using hb
      have hval : b.toNat ≠ hi.toNat := fun e => hval (BitVec.eq_of_toNat_eq e)
      show frameOutcome (0x42 :: 0x4D :: (d ++ [b, lo])) = _
      rw [frameOutcome_sdata b lo hd, sdataOutcome, if_neg (by omega)]
    · have hval : b ≠ lo := by simpa [List.getElem_append_right, hd] using hb
      have hval : b.toNat ≠ lo.toNat := fun e => hval (BitVec.eq_of_toNat_eq e)
      show frameOutcome (0x42 :: 0x4D :: (d ++ [hi, b])) = _
      rw [frameOutcome_sdata hi b hd, sdataOutcome, if_neg (by omega)]

/-- Settles O5: a valid data frame is a whole CDATA or SDATA frame (`frameOutcome_iff`), and with a byte behind its header
replaced its checksum fails; the other clauses are the same of the two sums and of the two tests. -/
theorem payloadBodyAndChecksumByteErrorsAreCaught : Obligations.PayloadBodyAndChecksumByteErrorsAreCaught := by
  refine ⟨fun bytes payload i hi b hgood h2 hb => ?_,
    fun ll p i hi b hb => cks8_set_ne (0x40 :: ll :: p) (i + 2) (by simpa using hi) b hb,
    fun d i hi b hb => cks16_set_ne (0x42 :: 0x4D :: d) (i + 2) (by simpa using hi) b hb,
    fun _ _ _ h hne => sumCloses_unique h hne, fun _ _ _ _ _ h hne => sumEquals_unique h hne⟩
  obtain ⟨j, rfl⟩ := Nat.exists_eq_add_of_le' h2
  generalize he : Event.resp .data payload = e at hgood
  cases frameOutcome_iff.1 hgood with
  | ack | nak | malformed => cases he
  | cdata ll p k len => exact frameOutcome_cdata_set len he.symm (Nat.lt_of_succ_lt_succ (Nat.lt_of_succ_lt_succ hi)) hb
  | sdata d hi' lo len => exact frameOutcome_sdata_set len he.symm (Nat.lt_of_succ_lt_succ (Nat.lt_of_succ_lt_succ hi)) hb

end Sys2Proof.Machine
end

