-- ==== Sys2Proof/Proofs/Moves.lean ====
section
/-! PROOFS. What a step can do to the block, whoever moves (00_scope.md R11): one case for each effect, and the statements
that say of every step what it changes and what it leaves alone. -/

namespace Sys2Proof.Safety

open Sys2Proof.Machine

variable {s t : State}

/-! ## The effects of a step -/

/-- What a mover can do to the block, the streams and the trace. HOST's program, the agenda and the free-value counter
(log 4, 5) come out as they may. -/
inductive StepEffect (s : State) : Move → State → Prop
  /-- Nothing of the block changes: a passed turn, a wait, or a byte of TXS taken by ENV. -/
  | passed (m : Move) (n : Nat) (hq : List HostAct) (ag : List Move) (k : Nat) :
      StepEffect s m { s with txTaken := n, hostq := hq, agenda := ag, tick := k }
  /-- HOST's request is answered at once: VAL8, VAL16 or REFUSED. -/
  | answered (e : Event) (hq : List HostAct) (ag : List Move) (k : Nat) :
      StepEffect s .host { s with trace := s.trace ++ [e], hostq := hq, agenda := ag, tick := k }
  /-- A frame is accepted (R141). -/
  | accepted (c : Byte) (p : List Byte) (hq : List HostAct) (ag : List Move) (k : Nat) (quiet : s.quiescent = true) :
      StepEffect s .host { s.latchCommand c p with hostq := hq, agenda := ag, tick := k }
  /-- A decode is accepted (R170). -/
  | started (hq : List HostAct) (ag : List Move) (k : Nat) (quiet : s.quiescent = true) :
      StepEffect s .host { s.startDecode with hostq := hq, agenda := ag, tick := k }
  /-- HOST flushes the transport (R69). -/
  | flushed (hq : List HostAct) (ag : List Move) (k : Nat) (quiet : s.quiescent = true)
      (act : (nextAct (schedule s).2).1 = .flush) :
      StepEffect s .host { s with rxq := [], hostq := hq, agenda := ag, tick := k }
  /-- TXU pushes one byte, with TXDONE after the last (R142 to R146). -/
  | pushed (tx : TxUnit) (b : Byte) (es : List Event) (ag : List Move) (k : Nat) (busy : s.tx.st ≠ .idle)
      (done : es = [] ∨ es = [.txdone]) :
      StepEffect s .txu { s with tx := tx, txs := s.txs ++ [b], trace := s.trace ++ es, agenda := ag, tick := k }
  /-- RXU pops one byte, by a row of R185. -/
  | popped (rx : RxUnit) (b : Byte) (q : List Byte) (es : List Event) (fl : Bool) (ag : List Move) (k : Nat)
      (busy : s.rx.st ≠ .idle) (queue : s.rxq = b :: q) (row : RxRow s.rx b rx.st es fl) :
      StepEffect s .rxu { s with
        rx := rx, rxq := if fl = true then [] else q, flushes := s.flushes + if fl = true then 1 else 0
        trace := s.trace ++ es, agenda := ag, tick := k }
  /-- ENV appends a byte (R36). -/
  | appended (b : Byte) (ag : List Move) (k : Nat) :
      StepEffect s (.envByte b) { s with rxq := s.rxq ++ [b], agenda := ag, tick := k }
  /-- The timeout ends a decode (R183). -/
  | timedOut (ag : List Move) (k : Nat) (busy : s.rx.st ≠ .idle) (queue : s.rxq = []) :
      StepEffect s .envTimeout { s.raise .timeout with agenda := ag, tick := k }
  /-- ENV loses a queued byte, in the lossy setting only (log 12). -/
  | lost (i : Nat) (ag : List Move) (k : Nat) (lossy : Config.rxqLossy = true) :
      StepEffect s (.envDrop i) { s with rxq := s.rxq.eraseIdx i, agenda := ag, tick := k }
  /-- The block is reset (R300). -/
  | reset (ag : List Move) (k : Nat) : StepEffect s .reset { s.resetBlock with agenda := ag, tick := k }

/-- A turn of TXU passes, or pushes one byte and changes only TXU beside it. -/
theorem txuTurn_pushes (h : txuTurn s = .next t) : t = s ∨ s.tx.st ≠ .idle ∧ ∃ tx b es,
    (es = [] ∨ es = [.txdone]) ∧ t = { s with tx := tx, txs := s.txs ++ [b], trace := s.trace ++ es } := by
  have silent : ∀ tx b, s.tx.st ≠ .idle → t = { s with tx := tx, txs := s.txs ++ [b] } → t = s ∨ s.tx.st ≠ .idle ∧
      ∃ tx b es, (es = [] ∨ es = [.txdone]) ∧ t = { s with tx := tx, txs := s.txs ++ [b], trace := s.trace ++ es } :=
    fun tx b hbusy e => .inr ⟨hbusy, tx, b, [], .inl rfl, by rw [e, List.append_nil]⟩
  rcases txuTurn_cases h with ⟨-, e⟩ | ⟨hst, e⟩ | ⟨hst, -, e⟩ | ⟨hst, e⟩ | ⟨hst, -, -, e⟩ | ⟨hst, e⟩
  · exact .inl e
  · exact silent _ _ (by simp [hst]) e
  · exact silent _ _ (by simp [hst]) e
  · exact silent _ _ (by simp [hst]) e
  · exact silent _ _ (by simp [hst]) e
  · exact .inr ⟨by simp [hst], _, _, _, .inr rfl, e⟩

/-- Every step has one of the effects. -/
theorem stepEffect (h : step s = .next t) : StepEffect s (schedule s).1 t := by
  obtain ⟨ag, k, hsched, ht⟩ := step_split h
  generalize hm : (schedule s).1 = m at ht ⊢
  rcases takeTurn_cases ht with
    ⟨rfl, ht⟩ | ⟨rfl, ht⟩ | ⟨rfl, ht⟩ | ⟨b, rfl, rfl⟩ | ⟨rfl, ht⟩ | ⟨rfl, rfl⟩ | ⟨i, rfl, rfl⟩ | ⟨rfl, rfl⟩
  · obtain ⟨hq, k', ⟨e, rfl⟩ | ⟨c, p, hquiet, -, rfl⟩ | ⟨hquiet, rfl⟩ | ⟨hact, hquiet, rfl⟩ | rfl⟩ := hostTurn_next ht
    · exact .answered e hq ag k'
    · exact .accepted c p hq ag k' hquiet
    · exact .started hq ag k' hquiet
    · exact .flushed hq ag k' hquiet (by rw [hsched]; exact hact)
    · exact .passed _ s.txTaken hq ag k'
  · obtain rfl | ⟨hbusy, tx, b, es, hes, rfl⟩ := txuTurn_pushes ht
    · exact .passed _ s.txTaken s.hostq ag k
    · exact .pushed tx b es ag k hbusy hes
  · obtain ⟨-, rfl⟩ | ⟨b, q, hqueue, hbusy, hbyte⟩ := rxuTurn_cases ht
    · exact .passed _ s.txTaken s.hostq ag k
    · obtain ⟨es, fl, hrow, e⟩ := rxuByte_next hbyte hbusy
      rw [e]
      exact .popped t.rx b q es fl ag k hbusy hqueue hrow
  · exact .appended b ag k
  · obtain ⟨hbusy, hqueue, e⟩ | ⟨-, e⟩ := timeoutTurn_cases { s with agenda := ag, tick := k } <;> cases e.symm.trans ht
    · exact .timedOut ag k hbusy hqueue
    · exact .passed _ s.txTaken s.hostq ag k
  · split_ifs
    · exact .passed _ (s.txTaken + 1) s.hostq ag k
    · exact .passed _ s.txTaken s.hostq ag k
  · split_ifs with hlossy
    · exact .lost i ag k hlossy
    · exact .passed _ s.txTaken s.hostq ag k
  · exact .reset ag k

/-- A row of the transition table emits no refusal, and at most one event. -/
theorem RxRow.events {rx : RxUnit} {b : Byte} {st : RxSt} {es : List Event} {fl : Bool} (h : RxRow rx b st es fl) :
    es = [] ∨ ∃ e, es = [e] ∧ ∀ op, e ≠ .refused op := by
  cases h <;> simp

/-- The only row that flushes is the malformed pair's (R177). -/
theorem RxRow.flush {rx : RxUnit} {b : Byte} {st : RxSt} {es : List Event} (h : RxRow rx b st es true) :
    rx.st = .h1 ∧ legalHeader rx.h0 b = false ∧ es = [.err .malformed] := by
  cases h with
  | malformed hst hpair => exact ⟨hst, hpair, rfl⟩

/-! ## The statements -/

/-- Settles O20: of the effects of a step, only a push by TXU touches TXS, and it appends. -/
theorem transmitStreamOnlyGrows : Obligations.TransmitStreamOnlyGrows := by
  intro s t h
  have heff := stepEffect h
  generalize (schedule s).1 = m at heff ⊢
  cases heff with
  | pushed tx b es ag k busy done => exact .inr ⟨rfl, busy, b, rfl⟩
  | _ => exact .inl rfl

/-- Settles O37: RXU is changed by a pop, by the timeout, by an accepted DEC and by a reset, and by no other effect. -/
theorem onlyTheseMovesChangeTheReceiveUnit : Obligations.OnlyTheseMovesChangeTheReceiveUnit := by
  intro s t h hne
  have heff := stepEffect h
  generalize (schedule s).1 = m at heff ⊢
  cases heff with
  | popped rx b q es fl ag k busy queue row => exact .inl ⟨rfl, busy, by simp [queue]⟩
  | timedOut ag k busy queue => exact .inr (.inl ⟨rfl, busy, queue, rfl⟩)
  | started hq ag k quiet =>
    obtain ⟨htx, hrx⟩ := State.quiescent_iff.1 quiet
    exact .inr (.inr (.inl ⟨rfl, htx, hrx, rfl⟩))
  | reset ag k => exact .inr (.inr (.inr ⟨rfl, rfl⟩))
  | _ => exact absurd rfl hne

/-- Settles O38: TXU is changed by a push, by an accepted frame and by a reset, and by no other effect. -/
theorem onlyTheseMovesChangeTheTransmitUnit : Obligations.OnlyTheseMovesChangeTheTransmitUnit := by
  intro s t h hne
  have heff := stepEffect h
  generalize (schedule s).1 = m at heff ⊢
  cases heff with
  | pushed tx b es ag k busy done => exact .inl ⟨rfl, busy⟩
  | accepted c p hq ag k quiet =>
    obtain ⟨htx, hrx⟩ := State.quiescent_iff.1 quiet
    exact .inr (.inl ⟨rfl, htx, hrx, rfl⟩)
  | reset ag k => exact .inr (.inr ⟨rfl, rfl⟩)
  | _ => exact absurd rfl hne

/-- Settles O42: of the effects of a step only a pop counts a flush, and of the rows of a pop only the malformed pair's. -/
theorem blockFlushesOnlyOnMalformed : Obligations.BlockFlushesOnlyOnMalformed := by
  intro s t h hne
  have heff := stepEffect h
  generalize (schedule s).1 = m at heff ⊢
  cases heff with
  | popped rx b q es fl ag k busy queue row =>
    cases fl with
    | false => exact absurd rfl hne
    | true =>
      obtain ⟨hst, hpair, rfl⟩ := row.flush
      exact ⟨rfl, hst, rfl, rfl, rfl, b, q, queue, hpair⟩
  | _ => exact absurd rfl hne

/-- Settles O43: the effects of a step on RXQ; a pop takes the front byte, and empties the queue only by the malformed
pair's row. -/
theorem receiveQueueIsFirstInFirstOut : Obligations.ReceiveQueueIsFirstInFirstOut := by
  intro s t h
  have heff := stepEffect h
  generalize (schedule s).1 = m at heff ⊢
  cases heff with
  | appended b ag k => exact .inr (.inl ⟨b, rfl, rfl⟩)
  | popped rx b q es fl ag k busy queue row =>
    cases fl with
    | false => exact .inr (.inr (.inl ⟨rfl, busy, b, queue⟩))
    | true =>
      obtain ⟨hst, hpair, -⟩ := row.flush
      exact .inr (.inr (.inr (.inl ⟨rfl, hst, rfl, rfl, b, q, queue, hpair⟩)))
  | flushed hq ag k quiet act =>
    exact .inr (.inr (.inr (.inr (.inl ⟨rfl, quiet, act, rfl, rfl, rfl, rfl, rfl, rfl⟩))))
  | lost i ag k lossy => exact .inr (.inr (.inr (.inr (.inr ⟨lossy, i, rfl, rfl⟩))))
  | _ => exact .inl rfl

/-- Settles O44: each effect emits at most one event, and REFUSED is emitted only by HOST's turn, which then changes
nothing else. -/
theorem traceGrowsByAtMostOneEvent : Obligations.TraceGrowsByAtMostOneEvent := by
  intro s t h
  have heff := stepEffect h
  generalize (schedule s).1 = m at heff
  have none : ∀ {op}, s.trace ≠ s.trace ++ [.refused op] := by simp
  cases heff with
  | answered e hq ag k => exact ⟨.inr ⟨e, rfl⟩, fun _ _ => ⟨rfl, rfl, rfl, rfl, rfl⟩⟩
  | pushed tx b es ag k busy done =>
    obtain rfl | rfl := done
    · exact ⟨.inl (List.append_nil _), fun op e => by simp at e⟩
    · exact ⟨.inr ⟨_, rfl⟩, fun op e => by simp at e⟩
  | popped rx b q es fl ag k busy queue row =>
    obtain rfl | ⟨e, rfl, hne⟩ := row.events
    · exact ⟨.inl (List.append_nil _), fun op e => by simp at e⟩
    · exact ⟨.inr ⟨e, rfl⟩, fun op h => absurd (by simpa using h) (hne op)⟩
  | timedOut ag k busy queue => exact ⟨.inr ⟨_, rfl⟩, fun op e => by simp at e⟩
  | _ => exact ⟨.inl rfl, fun op e => absurd e none⟩

end Sys2Proof.Safety
end

