-- ==== Sys2Proof/Proofs/ReceiveTurns.lean ====
section
/-! PROOFS. The rest of the receive unit's turns (42_decode.md R170, R175, R179, R182 to R185, R189): the checksum bytes, the
timeout, the passed turns, the rows in the wrong state, and that a turn of RXU is a function of RXU and RXQ alone. -/

namespace Sys2Proof.Machine

open Sys2Proof.Safety

variable {s t : State} {b : Byte}

/-! ## The rows that end a data frame -/

theorem sumEquals_eq_true_iff (acc : Word16) (hi lo : Byte) :
    sumEquals acc hi lo = true ↔ hi.toNat * 256 + lo.toNat = acc.toNat := by
  rw [sumEquals, decide_eq_true_eq, ← BitVec.toNat_inj, bigEndian_toNat]

theorem sumCloses_eq_true_iff (acc : Word16) (b : Byte) : sumCloses acc b = true ↔ (acc.toNat + b.toNat) % 256 = 0 :=
  decide_eq_true_iff

theorem rxuByte_ccks_good (h : s.rx.st = .ccks) (hlen : s.rx.len.toNat ≤ 254) (hsum : (s.rx.acc.toNat + b.toNat) % 256 = 0) :
    rxuByte b s = .next (s.deliverData (Memory.readFrom s.rx.buf 0 s.rx.len.toNat)) := by
  rw [rxuByte, h]
  exact (if_pos ((sumCloses_eq_true_iff _ _).2 hsum)).trans (if_pos hlen)

theorem rxuByte_ccks_bad (h : s.rx.st = .ccks) (hsum : (s.rx.acc.toNat + b.toNat) % 256 ≠ 0) :
    rxuByte b s = .next (s.raise .checksum) := by
  rw [rxuByte, h]
  exact if_neg (mt (sumCloses_eq_true_iff _ _).1 hsum)

theorem rxuByte_sckl_good (h : s.rx.st = .sckl) (hsum : s.rx.ckh.toNat * 256 + b.toNat = s.rx.acc.toNat) :
    rxuByte b s = .next (s.deliverData (Memory.readFrom s.rx.buf 0 26)) := by
  rw [rxuByte, h]
  exact if_pos ((sumEquals_eq_true_iff _ _ _).2 hsum)

theorem rxuByte_sckl_bad (h : s.rx.st = .sckl) (hsum : s.rx.ckh.toNat * 256 + b.toNat ≠ s.rx.acc.toNat) :
    rxuByte b s = .next (s.raise .checksum) := by
  rw [rxuByte, h]
  exact if_neg (mt (sumEquals_eq_true_iff _ _ _).1 hsum)

/-- CDATA's row, with its starting sum as a number (R175). -/
theorem exec_cdata (h : s.rx.st = .h1) (ll : Byte) :
    exec (.cdata ll) s = .next { s with rx := { s.rx with
      acc := BitVec.ofNat 16 (0x40 + ll.toNat), rem := ll, drop := 1, st := if ll.toNat = 0 then .ccks else .cpay } } := by
  have hz : ll.toNat = 0 ↔ ll = 0 := by rw [← BitVec.toNat_inj]; rfl
  refine (atSecondHeaderByte_eq h).trans ?_
  rw [accAdd_ofNat]
  simp only [hz]
  rfl

/-! ## Turns that change nothing of the block -/

theorem rxuTurn_passed (h : s.rxq = [] ∨ s.rx.st = .idle) : rxuTurn s = .next s := by
  cases hq : s.rxq with
  | nil => rw [rxuTurn, hq]
  | cons b q =>
    have hst : s.rx.st = .idle := h.resolve_left (by simp [hq])
    rw [rxuTurn, hq]
    simp only [rxuByte, hst, ← hq]

theorem timeoutTurn_passed (h : s.rx.st = .idle ∨ s.rxq ≠ []) : timeoutTurn s = .next s :=
  if_neg (by tauto)

/-! ## RXU by itself -/

/-- A block with these contents of RXU and RXQ and nothing else. -/
def receiverAlone (rx : RxUnit) (rxq : List Byte) : State :=
  { State.reset with rx := rx, rxq := rxq }

/-- `s` with RXU and RXQ as in `u`, the events of `u` behind its own and the flushes of `u` counted. -/
def State.withReceiver (s u : State) : State :=
  { s with rx := u.rx, rxq := u.rxq, trace := s.trace ++ u.trace, flushes := s.flushes + u.flushes }

/-- An outcome with its next state changed. -/
def mapNext (f : State → State) : Host.Outcome State Fault Refusal → Host.Outcome State Fault Refusal
  | .next u => .next (f u)
  | .fault r => .fault r
  | .refused r => .refused r

section MapNext

variable (f : State → State)

@[simp] theorem mapNext_next (u : State) : mapNext f (.next u) = .next (f u) := rfl
@[simp] theorem mapNext_fault (r : Fault) : mapNext f (.fault r) = .fault r := rfl
@[simp] theorem mapNext_refused (r : Refusal) : mapNext f (.refused r) = .refused r := rfl

@[simp] theorem mapNext_ite (c : Prop) [Decidable c] (o o' : Host.Outcome State Fault Refusal) :
    mapNext f (if c then o else o') = if c then mapNext f o else mapNext f o' := apply_ite ..

end MapNext

/-- A payload or body byte does to any block what it does to the receiver alone. -/
theorem takeBodyByte_eq_receiverAlone (b : Byte) (after : RxSt) (s : State) :
    takeBodyByte b after s = mapNext s.withReceiver (takeBodyByte b after (receiverAlone s.rx s.rxq)) := by
  simp only [takeBodyByte, mapNext_ite, mapNext_next, mapNext_fault]
  simp only [State.withReceiver, receiverAlone, State.reset, List.append_nil, Nat.add_zero]
  rfl

/-- A received row does to any block what it does to the receiver alone. -/
theorem exec_eq_receiverAlone (i : Instr) (hi : i.space = .received) (s : State) :
    exec i s = mapNext s.withReceiver (exec i (receiverAlone s.rx s.rxq)) := by
  have row : ∀ t u, t = s.withReceiver u →
      atSecondHeaderByte s t = mapNext s.withReceiver (atSecondHeaderByte (receiverAlone s.rx s.rxq) u) := by
    rintro _ u rfl
    simp only [atSecondHeaderByte, mapNext_ite, mapNext_next, mapNext_refused]
    rfl
  cases i with
  | ack => exact row _ _ rfl
  | nak => exact row _ _ rfl
  | cdata ll => exact row _ _ (by simp [State.withReceiver, receiverAlone, State.reset])
  | sdata => exact row _ _ (by simp [State.withReceiver, receiverAlone, State.reset])
  | malformed h0 h1 => exact row _ _ rfl
  | _ => cases hi

/-- A popped byte does to any block what it does to the receiver alone (R189). -/
theorem rxuByte_eq_receiverAlone (b : Byte) (s : State) :
    rxuByte b s = mapNext s.withReceiver (rxuByte b (receiverAlone s.rx s.rxq)) := by
  cases hst : s.rx.st <;> simp only [rxuByte, hst, receiverAlone]
  case h1 => exact exec_eq_receiverAlone _ (space_of_decode (bytes := [s.rx.h0, b]) rfl) s
  case cpay => exact takeBodyByte_eq_receiverAlone b _ s
  case sbody => exact takeBodyByte_eq_receiverAlone b _ s
  case ccks =>
    simp only [stepRCcks, mapNext_ite, mapNext_next, mapNext_fault]
    rfl
  case sckl =>
    simp only [stepRSckl, mapNext_ite, mapNext_next]
    rfl
  all_goals simp [State.withReceiver, State.reset, stepRH0, stepRSckh]

/-- What a popped byte does to one block it does to every block with the same RXU and RXQ. -/
theorem rxuByte_transfer {s' : State} (hrx : s'.rx = s.rx) (hq : s'.rxq = s.rxq) (h : rxuByte b s = .next t) :
    ∃ u, t = s.withReceiver u ∧ rxuByte b s' = .next (s'.withReceiver u) := by
  rw [rxuByte_eq_receiverAlone] at h ⊢
  rw [hrx, hq]
  cases hu : rxuByte b (receiverAlone s.rx s.rxq) <;> rw [hu] at h <;> cases h
  exact ⟨_, rfl, rfl⟩

/-! ## The statements -/

/-- Settles O25: CDATA's row in R_H1; 0x40 + LL fits the accumulator. -/
theorem cdataFrameStarts : Obligations.CdataFrameStarts := by
  intro ll s hst
  refine ⟨exec_cdata hst ll, ?_, decodeHeader_cdata ll⟩
  rw [BitVec.toNat_ofNat]
  omega

/-- Settles O28: each of the five rows asks for R_H1 first. -/
theorem receivedRowsRunOnlyInTheirState : Obligations.ReceivedRowsRunOnlyInTheirState := by
  intro i s hi hst
  have refused : ∀ t, atSecondHeaderByte s t = .refused .notAtSecondHeaderByte := fun _ => if_neg hst
  cases i with
  | ack | nak | cdata | sdata | malformed => exact refused _
  | _ => cases hi

/-- Settles O30: the checksum byte of a CDATA frame closes the sum or does not. -/
theorem cdataChecksumDecides : Obligations.CdataChecksumDecides := by
  intro s ag b q hag hst hq hlen
  exact ⟨fun hsum => (step_rxu hag hq).trans (rxuByte_ccks_good hst hlen hsum),
    fun hsum => (step_rxu hag hq).trans (rxuByte_ccks_bad hst hsum)⟩

/-- Settles O33: the received checksum of an SDATA frame is the sum or is not. -/
theorem sdataChecksumDecides : Obligations.SdataChecksumDecides := by
  intro s ag b q hag hst hq
  exact ⟨fun hsum => (step_rxu hag hq).trans (rxuByte_sckl_good hst hsum),
    fun hsum => (step_rxu hag hq).trans (rxuByte_sckl_bad hst hsum)⟩

/-- Settles O34: the timeout is taken, or its turn is passed. -/
theorem timeoutEndsAWaitingDecode : Obligations.TimeoutEndsAWaitingDecode := by
  intro s ag hag
  exact ⟨fun hst hq => (step_cons hag).trans (timeoutTurn_taken hst hq),
    fun h => (step_cons hag).trans (timeoutTurn_passed h)⟩

/-- Settles O35: RXU's turn is passed with RXQ empty or in R_IDLE. -/
theorem waitingHoldsEverything : Obligations.WaitingHoldsEverything := by
  intro s ag hag h
  exact (step_cons hag).trans (rxuTurn_passed h)

/-- Settles O36: a popped byte follows a row of the table (`rxuByte_next`). -/
theorem receiveTurnsFollowTheTable : Obligations.ReceiveTurnsFollowTheTable := by
  intro s t ag b q hag hst hq h
  rw [step_rxu hag hq] at h
  obtain ⟨es, fl, hrow, e⟩ := rxuByte_next h hst
  rw [e]
  exact ⟨es, fl, hrow, rfl, rfl, rfl, rfl, rfl⟩

/-- Settles O40: a turn of RXU passes in both blocks, or pops the same byte and does to both what it does to the receiver
alone. -/
theorem decodingIgnoresTheTransmitter : Obligations.DecodingIgnoresTheTransmitter := by
  intro s s' t ag ag' hag hag' hrx hqueue h
  by_cases hpass : s.rxq = [] ∨ s.rx.st = .idle
  · have hpass' : s'.rxq = [] ∨ s'.rx.st = .idle := by rwa [hrx, hqueue]
    cases (waitingHoldsEverything s ag hag hpass).symm.trans h
    exact ⟨_, [], waitingHoldsEverything s' ag' hag' hpass', hrx, hqueue, by simp⟩
  · cases hq : s.rxq with
    | nil => exact absurd (.inl hq) hpass
    | cons b q =>
      rw [step_rxu hag hq] at h
      obtain ⟨u, rfl, hu⟩ := rxuByte_transfer (s := { s with agenda := ag, rxq := q })
        (s' := { s' with agenda := ag', rxq := q }) hrx rfl h
      exact ⟨_, u.trace, (step_rxu hag' (hqueue.trans hq)).trans hu, rfl, rfl, rfl, rfl, rfl, rfl⟩

end Sys2Proof.Machine
end

