-- ==== Sys2Proof/Proofs/Invariant.lean ====
section
/-! PROOFS. What every run keeps (`Safety.Inv`; 10_state.md R23 to R32, 20_memory.md R74): TXU's turn keeps its part, a
byte popped by RXU keeps its part, and so every step keeps the whole; from a state of the invariant no turn faults. -/

namespace Sys2Proof.Safety

open Sys2Proof.Machine

variable {s t : State} {b : Byte}

/-! ## The transmit unit -/

/-- The accumulator stays exact while the bytes summed are no more than a whole frame's (R26, R136). -/
theorem accAdd_exact {acc : Word16} {bs : List Byte} (b : Byte) (h : acc.toNat = byteSum bs) (hl : bs.length ≤ 256) :
    (accAdd acc b).toNat = byteSum (bs ++ [b]) := by
  have hle := byteSum_le bs
  have hb := b.isLt
  simp only [accAdd_toNat, byteSum_append, byteSum_cons, byteSum_nil, h]
  omega

theorem TxInv.reset : TxInv TxUnit.reset where
  pay := rfl
  plen := by decide
  start _ := rfl
  idx := nofun
  done := nofun
  acc h := absurd rfl h

/-- An accepted frame's operands are in range (R141). -/
theorem TxInv.after_latchCommand (h : TxInv s.tx) (c : Byte) {p : List Byte} (hp : p.length ≤ Config.txPayloadMax) :
    TxInv (s.latchCommand c p).tx where
  pay := Memory.wf_writeFrom p _ 0 h.pay (by simpa using hp)
  plen := by
    simp only [Config.txPayloadMax, State.latchCommand_tx, BitVec.toNat_ofNat] at hp ⊢
    omega
  start _ := rfl
  idx := nofun
  done := nofun
  acc _ := rfl

/-- Where the bytes before TX_IDX have been pushed and summed, the state is T_CKS at the end of the payload and T_PAY
before it. -/
theorem TxInv.of_payload {tx : TxUnit} (hpay : Memory.wf tx.pay = true) (hplen : tx.plen.toNat ≤ Config.txPayloadMax)
    (hidx : tx.idx.toNat ≤ tx.plen.toNat) (hst : tx.st = if tx.idx = tx.plen then .cks else .pay)
    (hacc : tx.acc.toNat =
      byteSum (Config.hdrCmd :: lengthByte tx.plen :: tx.cmd :: Memory.readFrom tx.pay 0 tx.idx.toNat)) : TxInv tx := by
  by_cases hlast : tx.idx = tx.plen
  · rw [if_pos hlast] at hst
    exact ⟨hpay, hplen, by simp [hst], by simp [hst], fun _ => hlast, by simpa [sentSoFar, hst] using hacc⟩
  · rw [if_neg hlast] at hst
    have hne : tx.idx.toNat ≠ tx.plen.toNat := fun e => hlast (BitVec.eq_of_toNat_eq e)
    exact ⟨hpay, hplen, by simp [hst], fun _ => by omega, by simp [hst], by simpa [sentSoFar, hst] using hacc⟩

/-- A turn of TXU keeps its registers in range and its sum exact. -/
theorem TxInv.after_txuTurn (h : TxInv s.tx) (ht : txuTurn s = .next t) : TxInv t.tx := by
  have hplen : s.tx.plen.toNat ≤ 254 := h.plen
  rcases txuTurn_cases ht with ⟨hst, rfl⟩ | ⟨hst, rfl⟩ | ⟨hst, -, rfl⟩ | ⟨hst, rfl⟩ | ⟨hst, hi, -, rfl⟩ | ⟨hst, rfl⟩
  case inl => exact h
  all_goals
    have hacc := h.acc (by simp [hst])
    simp only [sentSoFar, hst] at hacc
  · exact ⟨h.pay, h.plen, fun _ => h.start (.inl hst), nofun, nofun, fun _ => accAdd_exact _ hacc (by simp)⟩
  · exact ⟨h.pay, h.plen, fun _ => h.start (.inr (.inl hst)), nofun, nofun, fun _ => accAdd_exact _ hacc (by simp)⟩
  · have hidx : s.tx.idx = 0 := h.start (.inr (.inr hst))
    refine .of_payload h.pay h.plen (by simp [hidx]) ?_ ?_
    · simp only [State.sendCovered_tx, hidx, eq_comm]
    · simpa [hidx, Memory.readFrom] using accAdd_exact s.tx.cmd hacc (by simp)
  · have hsucc := succ_toNat_of_lt hi
    refine .of_payload h.pay h.plen (by simp only [hsucc]; omega) rfl ?_
    simpa only [hsucc, Memory.readFrom_succ_end, Nat.zero_add, List.cons_append] using
      accAdd_exact (Memory.read s.tx.pay s.tx.idx.toNat) hacc (by simp; omega)
  · exact ⟨h.pay, h.plen, nofun, nofun, nofun, fun hne => absurd rfl hne⟩

/-- A turn of TXU never faults in range (R23, R25). -/
theorem TxInv.txuTurn_next (h : TxInv s.tx) : ∃ t, txuTurn s = .next t := by
  cases hst : s.tx.st with
  | idle => exact ⟨s, by rw [txuTurn, hst]⟩
  | hdr => exact ⟨_, txuTurn_hdr hst⟩
  | len => exact ⟨_, txuTurn_len hst h.plen⟩
  | cmd => exact ⟨_, txuTurn_cmd hst⟩
  | pay => exact ⟨_, txuTurn_pay hst (h.idx hst) h.plen⟩
  | cks => exact ⟨_, txuTurn_cks hst⟩

/-! ## The receive unit -/

/-- Between frames and in the header (R_IDLE, R_H0, R_H1) the range of RX_DROP and an empty buffer are all there is. -/
theorem RxInv.of_empty {rx : RxUnit} (hst : rx.st = .idle ∨ rx.st = .h0 ∨ rx.st = .h1) (hbuf : Memory.wf rx.buf = true)
    (hdrop : rx.drop.toNat ≤ Config.sdrop) (hlen : rx.len = 0) : RxInv rx := by
  rcases hst with hst | hst | hst <;>
    exact ⟨hbuf, hdrop, fun _ => hlen, by simp [hst], by simp [hst], by simp [hst], by simp [hst]⟩

theorem RxInv.of_ccks {rx : RxUnit} (hst : rx.st = .ccks) (hbuf : Memory.wf rx.buf = true)
    (hdrop : rx.drop.toNat ≤ Config.sdrop) (h : rx.rem = 0 ∧ rx.len.toNat ≤ Config.rxPayloadMax ∧ rx.acc.toNat ≤ 65344) :
    RxInv rx :=
  ⟨hbuf, hdrop, by simp [hst], by simp [hst], fun _ => h, by simp [hst], by simp [hst]⟩

theorem RxInv.of_cpay {rx : RxUnit} (hst : rx.st = .cpay) (hbuf : Memory.wf rx.buf = true)
    (hdrop : rx.drop.toNat ≤ Config.sdrop) (h : 1 ≤ rx.rem.toNat
      ∧ (rx.drop = 1 ∧ rx.len = 0 ∨ rx.drop = 0 ∧ rx.len.toNat + rx.rem.toNat ≤ Config.rxPayloadMax)
      ∧ rx.acc.toNat + 255 * rx.rem.toNat ≤ 65344) : RxInv rx :=
  ⟨hbuf, hdrop, by simp [hst], fun _ => h, by simp [hst], by simp [hst], by simp [hst]⟩

theorem RxInv.of_sbody {rx : RxUnit} (hst : rx.st = .sbody) (hbuf : Memory.wf rx.buf = true)
    (hdrop : rx.drop.toNat ≤ Config.sdrop) (h : 1 ≤ rx.rem.toNat
      ∧ (rx.drop ≠ 0 ∧ rx.len = 0 ∧ rx.rem.toNat = 26 + rx.drop.toNat ∨ rx.drop = 0 ∧ rx.len.toNat + rx.rem.toNat = 26)
      ∧ rx.acc.toNat + 255 * rx.rem.toNat ≤ 7283) : RxInv rx :=
  ⟨hbuf, hdrop, by simp [hst], by simp [hst], by simp [hst], fun _ => h, by simp [hst]⟩

theorem RxInv.of_scks {rx : RxUnit} (hst : rx.st = .sckh ∨ rx.st = .sckl) (hbuf : Memory.wf rx.buf = true)
    (h : rx.rem = 0 ∧ rx.drop = 0 ∧ rx.len = 26 ∧ rx.acc.toNat ≤ 7283) : RxInv rx := by
  have hdrop : rx.drop.toNat ≤ Config.sdrop := by simp [h.2.1]
  rcases hst with hst | hst <;>
    exact ⟨hbuf, hdrop, by simp [hst], by simp [hst], by simp [hst], by simp [hst], fun _ => h⟩

theorem RxInv.reset : RxInv RxUnit.reset :=
  .of_empty (.inl rfl) rfl (by decide) rfl

/-- The end of a decode, with a result or an error, leaves RXU in range (R179, R182, R269). -/
theorem RxInv.ended {rx : RxUnit} (h : RxInv rx) : RxInv { rx with len := 0, st := .idle } :=
  .of_empty (.inl rfl) h.buf h.drop rfl

theorem RxInv.after_startDecode (h : RxInv s.rx) : RxInv s.startDecode.rx :=
  .of_empty (.inr (.inl rfl)) h.buf (by simp) rfl

/-- What a payload or body byte does to the counts, as numbers: one byte less remains, a sum that cannot wrap keeps its
bound, and the byte is dropped or stored. -/
structure BodyByteCounts (rx rx' : RxUnit) (after : RxSt) (bound : Nat) : Prop where
  buf : Memory.wf rx'.buf = true
  st : rx'.st = if rx'.rem.toNat = 0 then after else rx.st
  rem : rx'.rem.toNat + 1 = rx.rem.toNat
  acc : rx'.acc.toNat + 255 * rx'.rem.toNat ≤ bound
  kept : (rx'.drop.toNat + 1 = rx.drop.toNat ∧ rx'.len.toNat = rx.len.toNat) ∨
    (rx.drop.toNat = 0 ∧ rx'.drop.toNat = 0 ∧ rx'.len.toNat = rx.len.toNat + 1)

theorem bodyByteCounts {after : RxSt} {bound : Nat} (h : takeBodyByte b after s = .next t) (hbuf : Memory.wf s.rx.buf = true)
    (hacc : s.rx.acc.toNat + 255 * s.rx.rem.toNat ≤ bound) : BodyByteCounts s.rx t.rx after bound := by
  obtain ⟨hrem0, hcase⟩ := takeBodyByte_cases h
  have hb := b.isLt
  have hrem : (s.rx.rem - 1).toNat + 1 = s.rx.rem.toNat := by bv_omega
  have hsum : (accAdd s.rx.acc b).toNat + 255 * (s.rx.rem - 1).toNat ≤ bound := by
    rw [accAdd_toNat]
    omega
  have hlast : s.rx.rem = 1 ↔ (s.rx.rem - 1).toNat = 0 := by bv_omega
  rcases hcase with ⟨hdrop, rfl⟩ | ⟨hdrop, hlen, rfl⟩
  · exact ⟨hbuf, by simp only [hlast], hrem, hsum, .inl ⟨by bv_omega, rfl⟩⟩
  · have hlen' : s.rx.len.toNat < 254 := hlen
    exact ⟨Memory.wf_write _ _ _ hbuf hlen', by simp only [hlast], hrem, hsum,
      .inr ⟨by simp [hdrop], by simp [hdrop], by bv_omega⟩⟩

/-- A payload byte keeps RXU in range (R178). -/
theorem RxInv.after_payloadByte (h : RxInv s.rx) (hst : s.rx.st = .cpay) (ht : takeBodyByte b .ccks s = .next t) :
    RxInv t.rx := by
  obtain ⟨hrem, hkeep, hacc⟩ := h.cpay hst
  obtain ⟨hbuf, hst', hrem', hacc', hkept⟩ := bodyByteCounts ht h.buf hacc
  replace hkeep : s.rx.drop = 1 ∧ s.rx.len = 0 ∨ s.rx.drop = 0 ∧ s.rx.len.toNat + s.rx.rem.toNat ≤ 254 := hkeep
  have hrange : t.rx.drop = 0 ∧ t.rx.len.toNat + t.rx.rem.toNat ≤ 254 := by bv_omega
  have hdrop : t.rx.drop.toNat ≤ Config.sdrop := by simp [hrange.1]
  split_ifs at hst' with hlast
  · have hlen : t.rx.len.toNat ≤ 254 := by omega
    exact .of_ccks hst' hbuf hdrop ⟨BitVec.eq_of_toNat_eq hlast, hlen, by omega⟩
  · exact .of_cpay (hst'.trans hst) hbuf hdrop ⟨by omega, .inr hrange, hacc'⟩

/-- A body byte keeps RXU in range (R180). -/
theorem RxInv.after_bodyByte (h : RxInv s.rx) (hst : s.rx.st = .sbody) (ht : takeBodyByte b .sckh s = .next t) :
    RxInv t.rx := by
  obtain ⟨hrem, hkeep, hacc⟩ := h.sbody hst
  obtain ⟨hbuf, hst', hrem', hacc', hkept⟩ := bodyByteCounts ht h.buf hacc
  have hrange : t.rx.drop ≠ 0 ∧ t.rx.len = 0 ∧ t.rx.rem.toNat = 26 + t.rx.drop.toNat ∨
      t.rx.drop = 0 ∧ t.rx.len.toNat + t.rx.rem.toNat = 26 := by bv_omega
  split_ifs at hst' with hlast
  · exact .of_scks (.inl hst') hbuf ⟨BitVec.eq_of_toNat_eq hlast, by bv_omega, by bv_omega, by omega⟩
  · have hdrop : t.rx.drop.toNat ≤ 2 := by
      have : s.rx.drop.toNat ≤ 2 := h.drop
      omega
    exact .of_sbody (hst'.trans hst) hbuf hdrop ⟨by omega, hrange, hacc'⟩

/-- The second header byte keeps RXU in range, whichever row it runs (R172 to R177). -/
theorem RxInv.after_stepRH1 (h : RxInv s.rx) (hst : s.rx.st = .h1) (ht : stepRH1 b s = .next t) : RxInv t.rx := by
  have hlen : s.rx.len = 0 := h.empty (.inr (.inr hst))
  have hb := b.isLt
  rcases stepRH1_cases b s hst with ⟨-, -, e⟩ | ⟨-, -, e⟩ | ⟨-, e⟩ | ⟨-, -, e⟩ | ⟨-, e⟩ <;> cases e.symm.trans ht
  · exact .of_empty (.inl rfl) h.buf h.drop hlen
  · exact .of_empty (.inl rfl) h.buf h.drop hlen
  · have hacc : (accAdd 0x40 b).toNat = 0x40 + b.toNat := by
      rw [accAdd_toNat]
      show (0x40 + b.toNat) % 65536 = 0x40 + b.toNat
      omega
    by_cases hz : b = 0
    · exact .of_ccks (if_pos hz) h.buf (by simp) ⟨hz, by simp [hlen], by simp only [hacc]; omega⟩
    · exact .of_cpay (if_neg hz) h.buf (by simp)
        ⟨byte_ne_zero.1 hz, .inl ⟨rfl, hlen⟩, by simp only [hacc]; omega⟩
  · exact .of_sbody rfl h.buf (by simp) ⟨by simp, .inl ⟨by simp, hlen, by simp⟩, by simp⟩
  · exact h.ended

/-- A byte popped by RXU keeps its registers in range. -/
theorem RxInv.after_rxuByte (h : RxInv s.rx) (ht : rxuByte b s = .next t) : RxInv t.rx := by
  cases hst : s.rx.st <;> rw [rxuByte, hst] at ht
  case idle => cases ht; exact h
  case h0 => cases ht; exact .of_empty (.inr (.inr rfl)) h.buf h.drop (h.empty (.inr (.inl hst)))
  case h1 => exact h.after_stepRH1 hst ht
  case cpay => exact h.after_payloadByte hst ht
  case ccks =>
    simp only [stepRCcks] at ht
    split_ifs at ht <;> cases ht <;> exact h.ended
  case sbody => exact h.after_bodyByte hst ht
  case sckh => cases ht; exact .of_scks (.inr rfl) h.buf (h.scks (.inl hst))
  case sckl =>
    simp only [stepRSckl] at ht
    split_ifs at ht <;> cases ht <;> exact h.ended

/-- A payload or body byte is taken where bytes remain and it is dropped or has its element of RX_BUF (R29, R32). -/
theorem takeBodyByte_next (after : RxSt) (hbuf : Memory.wf s.rx.buf = true) (hrem : 1 ≤ s.rx.rem.toNat)
    (hroom : s.rx.drop.toNat = 0 → s.rx.len.toNat < 254) : ∃ t, takeBodyByte b after s = .next t := by
  by_cases hdrop : s.rx.drop.toNat = 0
  · obtain ⟨buf, e, -⟩ := takeBodyByte_stored after rfl hrem hdrop (hroom hdrop) hbuf
    exact ⟨_, e⟩
  · exact ⟨_, takeBodyByte_dropped after rfl hrem (Nat.pos_of_ne_zero hdrop)⟩

/-- A byte popped by RXU never faults in range, and the row that R_H1 runs is never refused (R29, R32; log 11). -/
theorem RxInv.rxuByte_next (h : RxInv s.rx) (b : Byte) : ∃ t, rxuByte b s = .next t := by
  cases hst : s.rx.st with
  | idle => exact ⟨_, by rw [rxuByte, hst]⟩
  | h0 => exact ⟨_, rxuByte_h0 hst⟩
  | h1 =>
    simp only [rxuByte, hst]
    rcases stepRH1_cases b s hst with ⟨-, -, e⟩ | ⟨-, -, e⟩ | ⟨-, e⟩ | ⟨-, -, e⟩ | ⟨-, e⟩ <;> exact ⟨_, e⟩
  | cpay =>
    obtain ⟨hrem, hkeep, -⟩ := h.cpay hst
    replace hkeep : s.rx.drop = 1 ∧ s.rx.len = 0 ∨ s.rx.drop = 0 ∧ s.rx.len.toNat + s.rx.rem.toNat ≤ 254 := hkeep
    rw [rxuByte_cpay hst]
    exact takeBodyByte_next _ h.buf hrem (fun _ => by bv_omega)
  | ccks =>
    obtain ⟨-, hlen, -⟩ := h.ccks hst
    simp only [rxuByte, hst, stepRCcks, if_pos hlen]
    split_ifs <;> exact ⟨_, rfl⟩
  | sbody =>
    obtain ⟨hrem, hkeep, -⟩ := h.sbody hst
    rw [rxuByte_sbody hst]
    exact takeBodyByte_next _ h.buf hrem (fun _ => by bv_omega)
  | sckh => exact ⟨_, rxuByte_sckh hst⟩
  | sckl =>
    simp only [rxuByte, hst, stepRSckl]
    split_ifs <;> exact ⟨_, rfl⟩

/-! ## The turns of all agents -/

/-- The invariant is of the units and of the count of bytes taken: the queue, the trace, HOST's program and the schedule
are free. -/
theorem Inv.congr (h : Inv s) (htx : t.tx = s.tx) (hrx : t.rx = s.rx) (htxs : t.txs = s.txs)
    (htaken : t.txTaken = s.txTaken) : Inv t := by
  obtain ⟨hduplex, hti, hri, ht⟩ := h
  exact ⟨by rwa [htx, hrx], by rwa [htx], by rwa [hrx], by rwa [htxs, htaken]⟩

theorem Inv.after_hostTurn (h : Inv s) (ht : hostTurn s = .next t) : Inv t := by
  obtain ⟨hq, k, ⟨e, rfl⟩ | ⟨c, p, hquiet, hp, rfl⟩ | ⟨hquiet, rfl⟩ | ⟨-, -, rfl⟩ | rfl⟩ := hostTurn_next ht
  · exact h.congr rfl rfl rfl rfl
  · exact ⟨.inr (State.quiescent_iff.1 hquiet).2, h.tx.after_latchCommand c hp, h.rx, h.taken⟩
  · exact ⟨.inl (State.quiescent_iff.1 hquiet).1, h.tx, h.rx.after_startDecode, h.taken⟩
  · exact h.congr rfl rfl rfl rfl
  · exact h.congr rfl rfl rfl rfl

theorem Inv.after_txuTurn (h : Inv s) (ht : txuTurn s = .next t) : Inv t := by
  have htx := h.tx.after_txuTurn ht
  obtain rfl | ⟨hbusy, tx, b, es, -, rfl⟩ := txuTurn_pushes ht
  · exact h
  · refine ⟨.inr (h.halfDuplex.resolve_left hbusy), htx, h.rx, ?_⟩
    rw [List.length_append]
    exact Nat.le_add_right_of_le h.taken

theorem Inv.after_rxuTurn (h : Inv s) (ht : rxuTurn s = .next t) : Inv t := by
  obtain ⟨-, rfl⟩ | ⟨b, q, -, hbusy, hbyte⟩ := rxuTurn_cases ht
  · exact h
  · obtain ⟨es, fl, -, e⟩ := rxuByte_next hbyte hbusy
    have hrx : RxInv t.rx := RxInv.after_rxuByte (s := { s with rxq := q }) h.rx hbyte
    rw [e]
    exact ⟨.inl (h.halfDuplex.resolve_right hbusy), h.tx, hrx, h.taken⟩

theorem Inv.after_timeoutTurn (h : Inv s) (ht : timeoutTurn s = .next t) : Inv t := by
  obtain ⟨-, -, e⟩ | ⟨-, e⟩ := timeoutTurn_cases s <;> cases e.symm.trans ht
  · exact ⟨.inr rfl, h.tx, h.rx.ended, h.taken⟩
  · exact h

theorem Inv.after_takeTurn {m : Move} (h : Inv s) (ht : takeTurn m s = .next t) : Inv t := by
  obtain ⟨-, ht⟩ | ⟨-, ht⟩ | ⟨-, ht⟩ | ⟨b, -, rfl⟩ | ⟨-, ht⟩ | ⟨-, rfl⟩ | ⟨k, -, rfl⟩ | ⟨-, rfl⟩ := takeTurn_cases ht
  · exact h.after_hostTurn ht
  · exact h.after_txuTurn ht
  · exact h.after_rxuTurn ht
  · exact h.congr rfl rfl rfl rfl
  · exact h.after_timeoutTurn ht
  · split_ifs with hmore
    · exact ⟨h.halfDuplex, h.tx, h.rx, hmore⟩
    · exact h
  · split_ifs
    · exact h.congr rfl rfl rfl rfl
    · exact h
  · exact ⟨.inl rfl, .reset, .reset, h.taken⟩

/-- A turn of HOST answers a next state, or refuses bytes that are no request (log 20). -/
theorem safeOutcome_hostTurn (s : State) : SafeOutcome (hostTurn s) := by
  rw [hostTurn]
  rcases hostAct_cases (nextAct s).1 (nextAct s).2 { (nextAct s).2 with hostq := s.hostq } with
    ⟨_, e⟩ | ⟨_, e⟩ | ⟨_, _, -, -, e⟩ | ⟨-, e⟩ | ⟨-, -, e⟩ | e | e <;> rw [e] <;> trivial

theorem Inv.safeOutcome_takeTurn (h : Inv s) (m : Move) : SafeOutcome (takeTurn m s) := by
  have next : ∀ {o}, (∃ t, o = .next t) → SafeOutcome o := by
    rintro _ ⟨t, rfl⟩
    trivial
  cases m with
  | host => exact safeOutcome_hostTurn s
  | txu => exact next h.tx.txuTurn_next
  | rxu =>
    cases hqueue : s.rxq with
    | nil => exact next ⟨s, by rw [takeTurn, rxuTurn, hqueue]⟩
    | cons b q =>
      rw [takeTurn, rxuTurn, hqueue]
      exact next (RxInv.rxuByte_next (s := { s with rxq := q }) h.rx b)
  | envTimeout => obtain ⟨-, -, e⟩ | ⟨-, e⟩ := timeoutTurn_cases s <;> exact next ⟨_, e⟩
  | _ => exact next ⟨_, rfl⟩

/-! ## The statements -/

/-- Settles O56: the reset values of both units are in range, and nothing has been pushed or taken. -/
theorem resetSatisfiesInv : Obligations.ResetSatisfiesInv :=
  ⟨.inl rfl, .reset, .reset, Nat.le_refl 0⟩

/-- Settles O57: a step is the mover's turn, and each agent's turn keeps the invariant. -/
theorem everyStepKeepsInv : Obligations.EveryStepKeepsInv := by
  intro s t h hs
  obtain ⟨ag, k, -, ht⟩ := step_split hs
  exact (h.congr rfl rfl rfl rfl : Inv { s with agenda := ag, tick := k }).after_takeTurn ht

/-- Settles O58: a step is the mover's turn, and in range no agent's turn faults. -/
theorem noFaultFromInv : Obligations.NoFaultFromInv := by
  intro s h
  obtain ⟨ag, k, e⟩ := schedule_frame s
  rw [step, e]
  exact (h.congr rfl rfl rfl rfl : Inv { s with agenda := ag, tick := k }).safeOutcome_takeTurn _

/-- Settles O41: only a busy TXU pushes, only a decode in progress pops, and one of the units is idle. -/
theorem trafficIsHalfDuplex : Obligations.TrafficIsHalfDuplex := by
  intro s t h hs
  have heff := stepEffect hs
  generalize (schedule s).1 = m at heff ⊢
  cases heff with
  | pushed tx b es ag k busy done => exact ⟨fun _ => h.halfDuplex.resolve_left busy, fun hm => nomatch hm⟩
  | popped rx b q es fl ag k busy queue row =>
    exact ⟨fun hne => absurd rfl hne, fun _ _ => h.halfDuplex.resolve_right busy⟩
  | appended | flushed | lost => exact ⟨fun hne => absurd rfl hne, fun hm => nomatch hm⟩
  | _ => exact ⟨fun hne => absurd rfl hne, fun _ hne => absurd rfl hne⟩

end Sys2Proof.Safety
end

