-- ==== Sys2Proof/Proofs/Sending.lean ====
section
/-! PROOFS. A frame on its way out (41_encode.md R147, R158, 43_session_host.md R225): the bytes TXU still has to push, one
fewer with each of its turns, whatever the other agents do in between. -/

namespace Sys2Proof.Machine

open Sys2Proof.Safety

variable {s : State}

/-! ## The step that closes a frame -/

/-- Settles O16: the closing byte as a number, and the exact accumulator of `TxInv`. -/
theorem checksumStepClosesTheFrame : Obligations.ChecksumStepClosesTheFrame := by
  intro s ag hag hst
  have hbyte := closingByte_toNat s.tx.acc
  refine ⟨closingByte s.tx.acc, by omega, (step_txu hag).trans (txuTurn_cks hst), fun h => ?_⟩
  have hacc := h.acc (by simp [hst])
  omega

/-! ## What is left to push -/

/-- The covered bytes TXU has not pushed yet, as its registers say. -/
def coveredLeft (tx : TxUnit) : List Byte :=
  match tx.st with
  | .idle => []
  | .hdr =>
    Config.hdrCmd :: lengthByte tx.plen :: tx.cmd :: Memory.readFrom tx.pay tx.idx.toNat (tx.plen.toNat - tx.idx.toNat)
  | .len => lengthByte tx.plen :: tx.cmd :: Memory.readFrom tx.pay tx.idx.toNat (tx.plen.toNat - tx.idx.toNat)
  | .cmd => tx.cmd :: Memory.readFrom tx.pay tx.idx.toNat (tx.plen.toNat - tx.idx.toNat)
  | .pay => Memory.readFrom tx.pay tx.idx.toNat (tx.plen.toNat - tx.idx.toNat)
  | .cks => []

/-- All bytes TXU has not pushed yet: the covered ones and the byte that closes their sum; none in T_IDLE. -/
def toSend (tx : TxUnit) : List Byte :=
  if tx.st = .idle then [] else coveredLeft tx ++ [closingByte (accumulate tx.acc (coveredLeft tx))]

theorem toSend_eq_nil_iff {tx : TxUnit} : toSend tx = [] ↔ tx.st = .idle := by
  rw [toSend]
  split_ifs with h <;> simp [h]

/-- The counts a turn of TXU asks for (R23, R25), without those of the payload buffer and of the sum. -/
structure TxCounts (tx : TxUnit) : Prop where
  plen : tx.plen.toNat ≤ 254
  start : tx.st = .hdr ∨ tx.st = .len ∨ tx.st = .cmd → tx.idx = 0
  idx : tx.st = .pay → tx.idx.toNat < tx.plen.toNat

/-- Behind the command code the state is T_PAY, or T_CKS at the end of the payload: the counts hold, and the covered bytes
left are the payload's from TX_IDX on. -/
theorem payload_state {tx : TxUnit} (hplen : tx.plen.toNat ≤ 254) (hidx : tx.idx.toNat ≤ tx.plen.toNat)
    (hst : tx.st = if tx.idx = tx.plen then .cks else .pay) :
    (TxCounts tx ∧ tx.st ≠ .idle) ∧
      coveredLeft tx = Memory.readFrom tx.pay tx.idx.toNat (tx.plen.toNat - tx.idx.toNat) := by
  split_ifs at hst with hlast
  · refine ⟨⟨⟨hplen, by simp [hst], by simp [hst]⟩, by simp [hst]⟩, ?_⟩
    simp only [coveredLeft, hst, hlast, Nat.sub_self, Memory.readFrom]
  · have hne : tx.idx.toNat ≠ tx.plen.toNat := fun e => hlast (BitVec.eq_of_toNat_eq e)
    refine ⟨⟨⟨hplen, by simp [hst], fun _ => by omega⟩, by simp [hst]⟩, ?_⟩
    simp only [coveredLeft, hst]

/-- The state after a byte has been pushed and TXU has become `tx'`; TXDONE follows the last byte. -/
def State.afterPush (b : Byte) (tx' : TxUnit) (s : State) : State :=
  { s with tx := tx', txs := s.txs ++ [b], trace := s.trace ++ if toSend tx' = [] then [.txdone] else [] }

@[simp] theorem State.afterPush_tx (b : Byte) (tx' : TxUnit) (s : State) : (s.afterPush b tx').tx = tx' := rfl
@[simp] theorem State.afterPush_txs (b : Byte) (tx' : TxUnit) (s : State) : (s.afterPush b tx').txs = s.txs ++ [b] := rfl
@[simp] theorem State.afterPush_trace (b : Byte) (tx' : TxUnit) (s : State) :
    (s.afterPush b tx').trace = s.trace ++ if toSend tx' = [] then [.txdone] else [] := rfl

/-- One turn of a busy TXU, in terms of the bytes left: the first is pushed, and TXDONE follows the last. -/
def PushesFirst (s : State) (tx' : TxUnit) : Prop :=
  ∃ b, toSend s.tx = b :: toSend tx' ∧ TxCounts tx' ∧ txuTurn s = .next (s.afterPush b tx')

/-- A covered byte is pushed: it is summed, and the closing byte is still to come. -/
theorem pushesFirst_covered {b : Byte} {tx' : TxUnit} (hbusy : s.tx.st ≠ .idle) (hbusy' : tx'.st ≠ .idle)
    (hleft : coveredLeft s.tx = b :: coveredLeft tx') (hacc : tx'.acc = accAdd s.tx.acc b) (hc : TxCounts tx')
    (hturn : txuTurn s = .next { s with tx := tx', txs := s.txs ++ [b] }) : PushesFirst s tx' := by
  refine ⟨b, ?_, hc, ?_⟩
  · rw [toSend, toSend, if_neg hbusy, if_neg hbusy', hleft, hacc]
    rfl
  · rw [State.afterPush, if_neg (mt toSend_eq_nil_iff.1 hbusy'), List.append_nil]
    exact hturn

theorem txuTurn_pushesFirst (hc : TxCounts s.tx) (hbusy : s.tx.st ≠ .idle) : ∃ tx', PushesFirst s tx' := by
  cases hst : s.tx.st with
  | idle => exact absurd hst hbusy
  | hdr =>
    refine ⟨{ s.tx with acc := accAdd s.tx.acc Config.hdrCmd, st := .len }, pushesFirst_covered hbusy nofun ?_ rfl
      ⟨hc.plen, fun _ => hc.start (.inl hst), nofun⟩ (txuTurn_hdr hst)⟩
    simp only [coveredLeft, hst]
  | len =>
    refine ⟨{ s.tx with acc := accAdd s.tx.acc (lengthByte s.tx.plen), st := .cmd }, pushesFirst_covered hbusy nofun ?_ rfl
      ⟨hc.plen, fun _ => hc.start (.inr (.inl hst)), nofun⟩ (txuTurn_len hst hc.plen)⟩
    simp only [coveredLeft, hst]
  | cmd =>
    have hz : s.tx.plen = 0 ↔ s.tx.idx = s.tx.plen := by rw [hc.start (.inr (.inr hst)), eq_comm]
    have hturn := txuTurn_cmd hst
    simp only [hz] at hturn
    obtain ⟨hcounts, hpay⟩ := payload_state
      (tx := { s.tx with acc := accAdd s.tx.acc s.tx.cmd, st := if s.tx.idx = s.tx.plen then .cks else .pay })
      hc.plen (by simp [hc.start (.inr (.inr hst))]) rfl
    refine ⟨_, pushesFirst_covered hbusy hcounts.2 ?_ rfl hcounts.1 hturn⟩
    rw [hpay]
    simp only [coveredLeft, hst]
  | pay =>
    have hi := hc.idx hst
    have hsucc := succ_toNat_of_lt hi
    obtain ⟨hcounts, hpay⟩ := payload_state
      (tx := { s.tx with
        acc := accAdd s.tx.acc (Memory.read s.tx.pay s.tx.idx.toNat), idx := s.tx.idx + 1
        st := if s.tx.idx + 1 = s.tx.plen then .cks else .pay })
      hc.plen (by simp only [hsucc]; omega) rfl
    refine ⟨_, pushesFirst_covered hbusy hcounts.2 ?_ rfl hcounts.1 (txuTurn_pay hst hi hc.plen)⟩
    rw [hpay]
    simp only [coveredLeft, hst, hsucc]
    rw [show s.tx.plen.toNat - s.tx.idx.toNat = s.tx.plen.toNat - (s.tx.idx.toNat + 1) + 1 by omega, Memory.readFrom]
  | cks =>
    refine ⟨{ s.tx with st := .idle }, closingByte s.tx.acc, ?_, ⟨hc.plen, nofun, nofun⟩, txuTurn_cks hst⟩
    simp [toSend, coveredLeft, hst, accumulate]

theorem Reaches.one {t : State} (h : step s = .next t) : Reaches 1 s t :=
  Reaches.cons h (show Reaches 0 t t from rfl)

/-! ## A schedule while a frame goes out -/

/-- While RXU is idle, a move that is neither HOST's, TXU's nor a reset touches RXQ and ENV's count of taken bytes only. -/
theorem takeTurn_beside {m : Move} (hm : notHostNorReset m = true) (htxu : m ≠ .txu) (hrx : s.rx.st = .idle) :
    ∃ q n, takeTurn m s = .next { s with rxq := q, txTaken := n } := by
  cases m with
  | host | reset => cases hm
  | txu => exact absurd rfl htxu
  | rxu => exact ⟨_, _, rxuTurn_passed (.inr hrx)⟩
  | envByte b => exact ⟨_, _, rfl⟩
  | envTimeout => exact ⟨_, _, timeoutTurn_passed (.inl hrx)⟩
  | envTake => rw [takeTurn]; split_ifs <;> exact ⟨_, _, rfl⟩
  | envDrop k => rw [takeTurn]; split_ifs <;> exact ⟨_, _, rfl⟩

theorem txuTurn_idle (h : s.tx.st = .idle) : txuTurn s = .next s := by
  rw [txuTurn, h]

/-- The events of a whole transmission: TXDONE, or nothing where no byte is left. -/
def doneEvents (bs : List Byte) : List Event :=
  if bs = [] then [] else [.txdone]

/-- A schedule without HOST and reset that gives TXU a turn for each byte left pushes exactly these bytes, whatever stands
between those turns. -/
theorem reaches_sent (ms ag : List Move) (s : State) (hag : s.agenda = ms ++ ag) (hms : ms.all notHostNorReset = true)
    (hrx : s.rx.st = .idle) (hc : TxCounts s.tx) (hturns : (toSend s.tx).length ≤ ms.count .txu) :
    ∃ t, Reaches ms.length s t ∧ t.txs = s.txs ++ toSend s.tx ∧ t.trace = s.trace ++ doneEvents (toSend s.tx) ∧
      t.tx.st = .idle ∧ t.rx = s.rx ∧ t.flushes = s.flushes ∧ t.hostq = s.hostq ∧ t.agenda = ag := by
  induction ms generalizing s with
  | nil =>
    have hnil : toSend s.tx = [] := List.length_eq_zero_iff.1 (Nat.le_zero.1 hturns)
    exact ⟨s, rfl, by simp [hnil], by simp [hnil, doneEvents], toSend_eq_nil_iff.1 hnil, rfl, rfl, rfl, hag⟩
  | cons m ms ih =>
    simp only [List.all_cons, Bool.and_eq_true] at hms
    obtain ⟨hm, hms⟩ := hms
    have hstep := step_cons hag
    by_cases htxu : m = .txu
    · subst htxu
      rw [List.count_cons_self] at hturns
      by_cases hidle : s.tx.st = .idle
      · have hnil := toSend_eq_nil_iff.2 hidle
        obtain ⟨t, hrun, h⟩ := ih { s with agenda := ms ++ ag } rfl hms hrx hc (by simp [hnil])
        exact ⟨t, Reaches.cons (hstep.trans (txuTurn_idle hidle)) hrun, h⟩
      · obtain ⟨tx', b, hleft, hc', hturn⟩ := txuTurn_pushesFirst (s := { s with agenda := ms ++ ag }) hc hidle
        have hleft : toSend s.tx = b :: toSend tx' := hleft
        obtain ⟨t, hrun, htxs, htrace, h⟩ := ih (State.afterPush b tx' { s with agenda := ms ++ ag }) rfl hms hrx hc'
          (by rw [hleft] at hturns; exact Nat.le_of_succ_le_succ hturns)
        refine ⟨t, Reaches.cons (hstep.trans hturn) hrun, ?_, ?_, h⟩
        · simp [htxs, hleft]
        · rw [htrace, hleft]
          by_cases hlast : toSend tx' = [] <;> simp [hlast, doneEvents]
    · obtain ⟨q, n, hturn⟩ := takeTurn_beside (s := { s with agenda := ms ++ ag }) hm htxu hrx
      rw [List.count_cons_of_ne htxu] at hturns
      obtain ⟨t, hrun, h⟩ := ih { s with agenda := ms ++ ag, rxq := q, txTaken := n } rfl hms hrx hc hturns
      exact ⟨t, Reaches.cons (hstep.trans hturn) hrun, h⟩

/-- After `k` turns of TXU alone, `k` of the bytes left have been pushed, and TXDONE stands behind the last one. -/
theorem reaches_turns (k : Nat) (s : State) (hag : s.agenda = List.replicate k .txu) (hc : TxCounts s.tx)
    (hk : k ≤ (toSend s.tx).length) :
    ∃ t, Reaches k s t ∧ t.txs = s.txs ++ (toSend s.tx).take k ∧ toSend t.tx = (toSend s.tx).drop k ∧
      t.trace = s.trace ++ if toSend t.tx = [] then doneEvents (toSend s.tx) else [] := by
  induction k generalizing s with
  | zero =>
    refine ⟨s, rfl, by simp, rfl, ?_⟩
    by_cases hnil : toSend s.tx = [] <;> simp [hnil, doneEvents]
  | succ k ih =>
    have hbusy : s.tx.st ≠ .idle := fun hidle => by simp [toSend_eq_nil_iff.2 hidle] at hk
    obtain ⟨tx', b, hleft, hc', hturn⟩ :=
      txuTurn_pushesFirst (s := { s with agenda := List.replicate k .txu }) hc hbusy
    have hleft : toSend s.tx = b :: toSend tx' := hleft
    obtain ⟨t, hrun, htxs, hrest, htrace⟩ := ih (State.afterPush b tx' { s with agenda := List.replicate k .txu }) rfl hc'
      (by rw [hleft] at hk; exact Nat.le_of_succ_le_succ hk)
    refine ⟨t, Reaches.cons ((step_txu hag).trans hturn) hrun, ?_, by rw [hrest, hleft]; rfl, ?_⟩
    · simp [htxs, hleft]
    · rw [htrace, hleft]
      by_cases hlast : toSend tx' = []
      · have hnil : toSend t.tx = [] := by simp [hrest, hlast]
        simp [hlast, hnil, doneEvents]
      · simp [hlast, doneEvents]

/-! ## From the request on -/

/-- HOST's ENC on a quiescent block is accepted in one step. -/
theorem step_enc {cmd : Byte} {pay : List Byte} {hq : List HostAct} {ag : List Move} (hquiet : s.quiescent = true)
    (hp : pay.length ≤ 254) (hhost : s.hostq = .op (0x02 :: cmd :: pay) :: hq) (hag : s.agenda = .host :: ag) :
    step s = .next (State.latchCommand cmd pay { s with agenda := ag, hostq := hq }) :=
  (step_host hag hhost).trans (congrArg Host.Outcome.next (requestFrame_accepted cmd pay hquiet hp))

theorem TxCounts.latchCommand (s : State) (cmd : Byte) {pay : List Byte} (hp : pay.length ≤ 254) :
    TxCounts (s.latchCommand cmd pay).tx :=
  ⟨by simpa only [State.latchCommand_tx, ofNat_length_toNat hp] using hp, fun _ => rfl, nofun⟩

/-- What an accepted ENC has to push: the covered bytes as they read back from TX_PAY, then their checksum. -/
theorem toSend_latchCommand (s : State) (cmd : Byte) {pay read : List Byte} (hp : pay.length ≤ 254)
    (hread : Memory.readFrom (Memory.writeFrom s.tx.pay 0 pay) 0 pay.length = read) :
    toSend (s.latchCommand cmd pay).tx =
      Config.hdrCmd :: lengthByte (BitVec.ofNat 8 pay.length) :: cmd :: (read ++
        [cks8 (Config.hdrCmd :: lengthByte (BitVec.ofNat 8 pay.length) :: cmd :: read)]) := by
  rw [← closingByte_accumulate, toSend, if_neg nofun]
  simp only [coveredLeft, State.latchCommand_tx, ofNat_length_toNat hp, show (0 : Byte).toNat = 0 from rfl, Nat.sub_zero,
    hread, List.cons_append]

theorem toSend_latchCommand_eq_frame (s : State) (cmd : Byte) {pay : List Byte} (hp : pay.length ≤ 254)
    (hread : Memory.readFrom (Memory.writeFrom s.tx.pay 0 pay) 0 pay.length = pay) :
    toSend (s.latchCommand cmd pay).tx = frame cmd pay :=
  toSend_latchCommand s cmd hp hread

theorem toSend_latchCommand_length (s : State) (cmd : Byte) {pay : List Byte} (hp : pay.length ≤ 254) :
    (toSend (s.latchCommand cmd pay).tx).length = pay.length + 4 := by
  rw [toSend_latchCommand s cmd hp rfl]
  simp

/-- An accepted ENC and a schedule that gives TXU its turns push exactly the frame, where TX_PAY reads back the payload. -/
theorem reaches_encSent {cmd : Byte} {pay : List Byte} {hq : List HostAct} {ms ag : List Move} (hquiet : s.quiescent = true)
    (hp : pay.length ≤ 254) (hread : Memory.readFrom (Memory.writeFrom s.tx.pay 0 pay) 0 pay.length = pay)
    (hhost : s.hostq = .op (0x02 :: cmd :: pay) :: hq) (hag : s.agenda = .host :: (ms ++ ag))
    (hms : ms.all notHostNorReset = true) (hturns : pay.length + 4 ≤ ms.count .txu) :
    ∃ t, Reaches (ms.length + 1) s t ∧ t.txs = s.txs ++ frame cmd pay ∧ t.trace = s.trace ++ [.txdone] ∧
      t.tx.st = .idle ∧ t.rx = s.rx ∧ t.flushes = s.flushes ∧ t.hostq = hq ∧ t.agenda = ag := by
  have hframe := toSend_latchCommand_eq_frame { s with agenda := ms ++ ag, hostq := hq } cmd hp hread
  obtain ⟨t, hrun, htxs, htrace, h⟩ := reaches_sent ms ag
    (State.latchCommand cmd pay { s with agenda := ms ++ ag, hostq := hq }) rfl hms (State.quiescent_iff.1 hquiet).2
    (.latchCommand _ cmd hp) (by rwa [hframe, frame_length])
  refine ⟨t, Reaches.cons (step_enc hquiet hp hhost hag) hrun, by rw [htxs, hframe]; rfl, ?_, h⟩
  rw [htrace, hframe]
  rfl

/-! ## The statements -/

/-- Settles O17: `reaches_encSent`, with TX_PAY in canonical form. -/
theorem acceptedFrameIsPushedUnderAnyInterleaving : Obligations.AcceptedFrameIsPushedUnderAnyInterleaving := by
  intro s cmd pay hq ms ag htx hrx hp hwf hhost hag hms hturns
  exact reaches_encSent (quiescent_of_idle htx hrx) hp
    (Memory.readFrom_writeFrom pay s.tx.pay 0 hwf (by simpa using hp)) hhost hag hms hturns

/-- Settles O18: `reaches_turns` from the accepted request, which leaves len(pay) + 4 bytes to push. -/
theorem encEndsAfterPlenPlusFourSteps : Obligations.EncEndsAfterPlenPlusFourSteps := by
  intro s cmd pay hq k htx hrx hp hk hhost hag
  have hlen := toSend_latchCommand_length { s with agenda := List.replicate k .txu, hostq := hq } cmd hp
  obtain ⟨t, hrun, htxs, hrest, htrace⟩ := reaches_turns k
    (State.latchCommand cmd pay { s with agenda := List.replicate k .txu, hostq := hq }) rfl (.latchCommand _ cmd hp)
    (by rwa [hlen])
  have hend : toSend t.tx = [] ↔ k = pay.length + 4 := by
    rw [hrest, List.drop_eq_nil_iff, hlen]
    omega
  refine ⟨t, Reaches.cons (step_enc (quiescent_of_idle htx hrx) hp hhost hag) hrun, ?_,
    toSend_eq_nil_iff.symm.trans hend, ?_⟩
  · rw [htxs, List.length_append, List.length_take, hlen, Nat.min_eq_left hk]
    rfl
  · have hne : toSend (State.latchCommand cmd pay { s with agenda := List.replicate k .txu, hostq := hq }).tx ≠ [] :=
      List.ne_nil_of_length_eq_add_one hlen
    rw [htrace, doneEvents, if_neg hne]
    simp only [hend]
    rfl

/-- One SEND of a command without payload: the request, TXU's four turns and the wait. -/
theorem reaches_sendScript {cmd : Byte} {hq : List HostAct} {ag : List Move} (hquiet : s.quiescent = true)
    (hhost : s.hostq = sendScript cmd [] ++ hq) (hag : s.agenda = .host :: (List.replicate 4 .txu ++ .host :: ag)) :
    ∃ t, Reaches 6 s t ∧ t.txs = s.txs ++ frame cmd [] ∧ t.trace = s.trace ++ [.txdone] ∧ t.rx = s.rx ∧
      t.quiescent = true ∧ t.hostq = hq ∧ t.agenda = ag := by
  obtain ⟨t, hrun, htxs, htrace, htx, hrx, -, hhost', hag'⟩ :=
    reaches_encSent (pay := []) (hq := .await :: hq) hquiet (by simp) rfl hhost hag (by decide) (by decide)
  have hquiet' : t.quiescent = true := quiescent_of_idle htx (by rw [hrx]; exact (State.quiescent_iff.1 hquiet).2)
  obtain ⟨-, hawait, -⟩ := hostWaitsForQuiescence t ag hq hag'
  exact ⟨_, Reaches.trans hrun (Reaches.one (hawait hhost' hquiet')), htxs, htrace, hrx, hquiet', rfl, rfl⟩

/-- Settles O47: two SENDs, the settling wait and HOST's flush. -/
theorem initialisationSendsTwoFramesAndFlushes : Obligations.InitialisationSendsTwoFramesAndFlushes := by
  intro s hq ag hquiet hhost hag
  obtain ⟨t, hrun, htxs, htrace, hrx, hquiet', hhost', hag'⟩ :=
    reaches_sendScript (cmd := 0x20) (hq := sendScript 0x02 [] ++ .settle :: .flush :: hq) hquiet hhost hag
  obtain ⟨u, hrun', htxs', htrace', hrx', hquiet'', hhost'', hag''⟩ := reaches_sendScript hquiet' hhost' hag'
  obtain ⟨-, -, -, hsettle⟩ := hostWaitsForQuiescence u _ _ hag''
  obtain ⟨hflush, -⟩ :=
    hostWaitsForQuiescence { u with agenda := .host :: ag, hostq := .flush :: hq } ag hq rfl
  refine ⟨_, Reaches.trans hrun (Reaches.trans hrun' (Reaches.cons (hsettle hhost'') (Reaches.one (hflush rfl hquiet'')))),
    ?_, hrx'.trans hrx, rfl, ?_, rfl, hquiet'', rfl⟩
  · show u.txs = _
    rw [htxs', htxs, List.append_assoc]
    rfl
  · show u.trace = _
    rw [htrace', htrace, List.append_assoc]
    rfl

end Sys2Proof.Machine
end

