-- ==== Sys2Proof/Proofs/Decoding.lean ====
section
/-! PROOFS. A DEC over one whole frame (42_decode.md R186, R187): the run of RXU through a payload or body, then each kind of
frame from its first header byte to its result. -/

namespace Sys2Proof.Machine

open Sys2Proof.Safety

variable {s : State} {q : List Byte} {ag : List Move}

/-! ## The run through a payload or body -/

/-- What RXU holds behind a run of payload or body bytes: their sum, and the bytes behind the dropped ones. -/
structure BodyTaken (rx : RxUnit) (bs : List Byte) (after : RxSt) (rx' : RxUnit) : Prop where
  st : rx'.st = after
  acc : rx'.acc = accumulate rx.acc bs
  held : Memory.readFrom rx'.buf 0 rx'.len.toNat = Memory.readFrom rx.buf 0 rx.len.toNat ++ bs.drop rx.drop.toNat

/-- Storing a byte behind the held ones appends it to what is read. -/
theorem readFrom_stored {m m' : Memory} {n : Nat} {b : Byte} (hnew : Memory.read m' n = b)
    (hold : ∀ a, a ≠ n → Memory.read m' a = Memory.read m a) :
    Memory.readFrom m' 0 (n + 1) = Memory.readFrom m 0 n ++ [b] := by
  rw [Memory.readFrom_succ_end, Nat.zero_add, hnew, Memory.readFrom_congr m' m 0 n fun i _ hi => hold i (by omega)]

/-- RXU in the middle of a payload or body: `n` bytes are to come, each taken in state `st` and followed by `after` at the
end, and those that will be stored fit RX_BUF (R29, R32). -/
structure BodyReady (st after : RxSt) (rx : RxUnit) (n : Nat) : Prop where
  st : rx.st = if rx.rem.toNat = 0 then after else st
  rem : rx.rem.toNat = n
  room : rx.len.toNat + (n - rx.drop.toNat) ≤ 254
  buf : Memory.wf rx.buf = true

/-- One of these bytes is taken: the sum takes it, and it stands behind the held ones or is dropped. -/
theorem takeBodyByte_ready {st after : RxSt} {n : Nat} (h : BodyReady st after s.rx (n + 1)) (b : Byte) :
    ∃ rx', takeBodyByte b after s = .next { s with rx := rx' } ∧ BodyReady st after rx' n ∧ rx'.acc = accAdd s.rx.acc b ∧
      ∀ bs, Memory.readFrom rx'.buf 0 rx'.len.toNat ++ bs.drop rx'.drop.toNat =
        Memory.readFrom s.rx.buf 0 s.rx.len.toNat ++ (b :: bs).drop s.rx.drop.toNat := by
  obtain ⟨hst, hrem, hroom, hwf⟩ := h
  rw [if_neg (by omega)] at hst
  have hrem1 : 1 ≤ s.rx.rem.toNat := by omega
  have hrem8 : (BitVec.ofNat 8 (s.rx.rem.toNat - 1) : Byte).toNat = s.rx.rem.toNat - 1 := by
    rw [BitVec.toNat_ofNat]
    omega
  by_cases hdrop : s.rx.drop.toNat = 0
  · have hlen : s.rx.len.toNat < 254 := by omega
    have hlen8 : (BitVec.ofNat 8 (s.rx.len.toNat + 1) : Byte).toNat = s.rx.len.toNat + 1 := by
      rw [BitVec.toNat_ofNat]
      omega
    obtain ⟨buf, hturn, hwf', hnew, hold⟩ := takeBodyByte_stored (b := b) after hst hrem1 hdrop hlen hwf
    refine ⟨_, hturn, ⟨by simp only [hrem8], by simp only [hrem8]; omega, by simp only [hlen8]; omega, hwf'⟩,
      (accAdd_ofNat _ _).symm, fun bs => ?_⟩
    simp only [hlen8, hdrop, readFrom_stored hnew hold, List.drop_zero, List.append_assoc, List.singleton_append]
  · have hdrop2 : (BitVec.ofNat 2 (s.rx.drop.toNat - 1) : BitVec 2).toNat = s.rx.drop.toNat - 1 := by
      rw [BitVec.toNat_ofNat]
      omega
    have hturn := takeBodyByte_dropped (b := b) after hst hrem1 (Nat.pos_of_ne_zero hdrop)
    refine ⟨_, hturn, ⟨by simp only [hrem8], by simp only [hrem8]; omega, by simp only [hdrop2]; omega, hwf⟩,
      (accAdd_ofNat _ _).symm, fun bs => ?_⟩
    have hcons : (b :: bs).drop s.rx.drop.toNat = bs.drop (s.rx.drop.toNat - 1) := by
      obtain ⟨d, hd⟩ := Nat.exists_eq_succ_of_ne_zero hdrop
      rw [hd]
      rfl
    simp only [hdrop2, hcons]

/-- The turns of RXU through all bytes of a payload or body. -/
theorem reaches_bodyTaken {st after : RxSt} (htake : ∀ {s b}, s.rx.st = st → rxuByte b s = takeBodyByte b after s)
    (bs : List Byte) (s : State) (hag : s.agenda = List.replicate bs.length .rxu ++ ag) (hq : s.rxq = bs ++ q)
    (h : BodyReady st after s.rx bs.length) :
    ∃ rx', Reaches bs.length s { s with agenda := ag, rxq := q, rx := rx' } ∧ BodyTaken s.rx bs after rx' := by
  induction bs generalizing s with
  | nil =>
    have hag : s.agenda = ag := hag
    have hq : s.rxq = q := hq
    refine ⟨s.rx, ?_, ?_, rfl, by simp⟩
    · subst hag hq
      rfl
    · rw [h.st]
      exact if_pos h.rem
  | cons b bs ih =>
    have hst : s.rx.st = st := by
      have hrem := h.rem
      simp only [List.length_cons] at hrem
      rw [h.st, if_neg (by omega)]
    obtain ⟨rx₁, hturn, hready, hacc, hheld⟩ := takeBodyByte_ready
      (s := { s with agenda := List.replicate bs.length .rxu ++ ag, rxq := bs ++ q }) h b
    have hstep := ((step_rxu (ag := List.replicate bs.length .rxu ++ ag) hag hq).trans (htake hst)).trans hturn
    obtain ⟨rx', hrun, hst', hacc', hheld'⟩ :=
      ih { s with agenda := List.replicate bs.length .rxu ++ ag, rxq := bs ++ q, rx := rx₁ } rfl rfl hready
    exact ⟨rx', Reaches.cons hstep hrun, hst', by rw [hacc', hacc]; rfl, hheld'.trans (hheld bs)⟩

/-! ## Each kind of frame, from R_H0 on -/

/-- The end of a decode with outcome `e`, `q` behind the frame's bytes (R186, R187). -/
structure Decoded (s : State) (e : Event) (q : List Byte) (ag : List Move) (t : State) : Prop where
  trace : t.trace = s.trace ++ [e]
  rxq : t.rxq = if e = .err .malformed then [] else q
  flushes : t.flushes = s.flushes + if e = .err .malformed then 1 else 0
  st : t.rx.st = .idle
  len : t.rx.len = 0
  tx : t.tx = s.tx
  txs : t.txs = s.txs
  hostq : t.hostq = s.hostq
  agenda : t.agenda = ag

/-- The state in which a received row runs: both header bytes are popped, the first is held in RX_H0. -/
def State.headerTaken (h0 : Byte) (q : List Byte) (ag : List Move) (s : State) : State :=
  { s with agenda := ag, rxq := q, rx := { s.rx with h0 := h0, st := .h1 } }

/-- The two header bytes of a frame select the row that runs. -/
theorem reaches_header {h0 h1 : Byte} {t : State} (hst : s.rx.st = .h0) (hag : s.agenda = .rxu :: .rxu :: ag)
    (hq : s.rxq = h0 :: h1 :: q) (hrow : exec (decodeHeader h0 h1) (s.headerTaken h0 q ag) = .next t) : Reaches 2 s t :=
  Reaches.cons ((step_rxu hag hq).trans (rxuByte_h0 hst)) <|
    Reaches.one (((step_rxu (b := h1) (q := q) rfl rfl).trans (rxuByte_h1 rfl)).trans hrow)

theorem cdataOutcome_ne_malformed (ll : Byte) (p : List Byte) (k : Byte) : cdataOutcome ll p k ≠ .err .malformed := by
  rw [cdataOutcome]
  split_ifs <;> simp

theorem sdataOutcome_ne_malformed (d : List Byte) (hi lo : Byte) : sdataOutcome d hi lo ≠ .err .malformed := by
  rw [sdataOutcome]
  split_ifs <;> simp

/-- The end of a data frame: the event of its checksum, RX_LEN 0, R_IDLE, no flush. -/
def State.dataEnd (e : Event) (s : State) : State :=
  { s.emit e with rx := { s.rx with len := 0, st := .idle } }

theorem decoded_dataEnd {e : Event} {rx : RxUnit} (he : e ≠ .err .malformed) :
    Decoded s e q ag (State.dataEnd e { s with agenda := ag, rxq := q, rx := rx }) :=
  ⟨rfl, by rw [if_neg he]; rfl, by rw [if_neg he]; rfl, rfl, rfl, rfl, rfl, rfl, rfl⟩

/-- The checksum byte of a CDATA frame whose payload has been taken. -/
theorem rxuByte_cdataEnd {ll k : Byte} {p : List Byte} (hst : s.rx.st = .ccks)
    (hacc : s.rx.acc.toNat = byteSum (0x40 :: ll :: p) % 65536) (hlen : s.rx.len.toNat ≤ 254)
    (hheld : Memory.readFrom s.rx.buf 0 s.rx.len.toNat = p.drop 1) :
    rxuByte k s = .next (s.dataEnd (cdataOutcome ll p k)) := by
  have hsum : (s.rx.acc.toNat + k.toNat) % 256 = byteSum (0x40 :: ll :: (p ++ [k])) % 256 := by
    rw [hacc]
    simp only [byteSum_cons, byteSum_append, byteSum_nil]
    omega
  by_cases hgood : byteSum (0x40 :: ll :: (p ++ [k])) % 256 = 0
  · rw [rxuByte_ccks_good hst hlen (hsum.trans hgood), hheld, cdataOutcome, if_pos hgood]
    rfl
  · rw [rxuByte_ccks_bad hst (hsum ▸ hgood), cdataOutcome, if_neg hgood]
    rfl

/-- The second checksum byte of an SDATA frame whose body has been taken. -/
theorem rxuByte_sdataEnd {hi lo : Byte} {d : List Byte} (hst : s.rx.st = .sckl) (hckh : s.rx.ckh = hi)
    (hacc : s.rx.acc.toNat = byteSum (0x42 :: 0x4D :: d)) (hheld : Memory.readFrom s.rx.buf 0 26 = d.drop 2) :
    rxuByte lo s = .next (s.dataEnd (sdataOutcome d hi lo)) := by
  by_cases hgood : hi.toNat * 256 + lo.toNat = byteSum (0x42 :: 0x4D :: d)
  · rw [rxuByte_sckl_good hst (by rw [hckh, hgood, hacc]), hheld, sdataOutcome, if_pos hgood]
    rfl
  · rw [rxuByte_sckl_bad hst (by rwa [hckh, hacc]), sdataOutcome, if_neg hgood]
    rfl

/-- What is held at the end of a run that began with an empty buffer, and how many bytes that is. -/
theorem BodyTaken.held_of_empty {rx rx' : RxUnit} {bs : List Byte} {after : RxSt} (h : BodyTaken rx bs after rx')
    (hlen : rx.len = 0) : Memory.readFrom rx'.buf 0 rx'.len.toNat = bs.drop rx.drop.toNat ∧
      rx'.len.toNat = bs.length - rx.drop.toNat := by
  have hheld := h.held
  rw [hlen] at hheld
  exact ⟨hheld, by simpa [Memory.readFrom] using congrArg List.length hheld⟩

theorem reaches_cdata {ll k : Byte} {p : List Byte} (hp : p.length = ll.toNat) (hst : s.rx.st = .h0) (hlen : s.rx.len = 0)
    (hwf : Memory.wf s.rx.buf = true) (hag : s.agenda = .rxu :: .rxu :: (List.replicate p.length .rxu ++ .rxu :: ag))
    (hq : s.rxq = 0x40 :: ll :: (p ++ k :: q)) :
    ∃ t, Reaches (2 + (p.length + 1)) s t ∧ Decoded s (cdataOutcome ll p k) q ag t := by
  have hheader := reaches_header hst hag hq ((congrArg (exec · _) (decodeHeader_cdata ll)).trans (exec_cdata rfl ll))
  obtain ⟨rx', hbody, htaken⟩ := reaches_bodyTaken (ag := .rxu :: ag) (q := k :: q) (st := .cpay) (after := .ccks)
    rxuByte_cpay p
    { s with
      agenda := List.replicate p.length .rxu ++ .rxu :: ag, rxq := p ++ k :: q
      rx := { s.rx with
        h0 := 0x40, acc := BitVec.ofNat 16 (0x40 + ll.toNat), rem := ll, drop := 1
        st := if ll.toNat = 0 then .ccks else .cpay } }
    rfl rfl ⟨rfl, hp.symm, by simp [hlen]; omega, hwf⟩
  obtain ⟨hheld, hcount⟩ := htaken.held_of_empty hlen
  have hcount : rx'.len.toNat ≤ 254 := by
    rw [hcount]
    show p.length - 1 ≤ 254
    omega
  have hacc : rx'.acc.toNat = byteSum (0x40 :: ll :: p) % 65536 := by
    rw [htaken.acc, accumulate_toNat]
    simp only [byteSum_cons, BitVec.toNat_ofNat, show (0x40 : Byte).toNat = 0x40 from rfl]
    omega
  have hend := rxuByte_cdataEnd (k := k) (s := { s with agenda := ag, rxq := q, rx := rx' }) htaken.st hacc
    hcount hheld
  exact ⟨_, Reaches.trans hheader (Reaches.trans hbody (Reaches.one ((step_rxu rfl rfl).trans hend))),
    decoded_dataEnd (cdataOutcome_ne_malformed ll p k)⟩

theorem reaches_sdata {hi lo : Byte} {d : List Byte} (hd : d.length = 28) (hst : s.rx.st = .h0) (hlen : s.rx.len = 0)
    (hwf : Memory.wf s.rx.buf = true)
    (hag : s.agenda = .rxu :: .rxu :: (List.replicate d.length .rxu ++ .rxu :: .rxu :: ag))
    (hq : s.rxq = 0x42 :: 0x4D :: (d ++ hi :: lo :: q)) :
    ∃ t, Reaches (2 + (d.length + 2)) s t ∧ Decoded s (sdataOutcome d hi lo) q ag t := by
  have hheader := reaches_header hst hag hq ((congrArg (exec · _) decodeHeader_sdata).trans (exec_sdata rfl))
  obtain ⟨rx', hbody, htaken⟩ := reaches_bodyTaken (ag := .rxu :: .rxu :: ag) (q := hi :: lo :: q) (st := .sbody)
    (after := .sckh) rxuByte_sbody d
    { s with
      agenda := List.replicate d.length .rxu ++ .rxu :: .rxu :: ag, rxq := d ++ hi :: lo :: q
      rx := { s.rx with h0 := 0x42, acc := 143, rem := 28, drop := 2, st := .sbody } }
    rfl rfl ⟨rfl, hd.symm, by simp [hlen, hd], hwf⟩
  obtain ⟨hheld, hcount⟩ := htaken.held_of_empty hlen
  have hcount : rx'.len.toNat = 26 := by rw [hcount, hd]; rfl
  have hacc : rx'.acc.toNat = byteSum (0x42 :: 0x4D :: d) := by
    have hlt := sdata_sum_lt hd
    rw [htaken.acc, accumulate_toNat]
    simp only [byteSum_cons, show (0x42 : Byte).toNat = 0x42 from rfl, show (0x4D : Byte).toNat = 0x4D from rfl] at hlt ⊢
    rw [show (143 : Word16).toNat = 143 from rfl]
    omega
  have hhigh := rxuByte_sckh (b := hi) (s := { s with agenda := .rxu :: ag, rxq := lo :: q, rx := rx' }) htaken.st
  have hend := rxuByte_sdataEnd (hi := hi) (lo := lo)
    (s := { s with agenda := ag, rxq := q, rx := { rx' with ckh := hi, st := .sckl } }) rfl rfl hacc (hcount ▸ hheld)
  exact ⟨_, Reaches.trans hheader (Reaches.trans hbody (Reaches.cons ((step_rxu rfl rfl).trans hhigh)
    (Reaches.one ((step_rxu rfl rfl).trans hend)))), decoded_dataEnd (sdataOutcome_ne_malformed d hi lo)⟩

/-- From R_H0 with nothing held, the turns of RXU over a whole frame end in its outcome. -/
theorem reaches_decoded {bytes : List Byte} {e : Event} (hframe : WholeFrame bytes e) (hst : s.rx.st = .h0)
    (hlen : s.rx.len = 0) (hwf : Memory.wf s.rx.buf = true) (hag : s.agenda = List.replicate bytes.length .rxu ++ ag)
    (hq : s.rxq = bytes ++ q) : ∃ t, Reaches bytes.length s t ∧ Decoded s e q ag t := by
  cases hframe with
  | ack => exact ⟨_, reaches_header hst hag hq (exec_ack rfl), rfl, rfl, rfl, rfl, hlen, rfl, rfl, rfl, rfl⟩
  | nak => exact ⟨_, reaches_header hst hag hq (exec_nak rfl), rfl, rfl, rfl, rfl, hlen, rfl, rfl, rfl, rfl⟩
  | malformed h0 h1 pair =>
    exact ⟨_, reaches_header hst hag hq ((congrArg (exec · _) (decodeHeader_of_not_legal pair)).trans (exec_malformed rfl)),
      rfl, rfl, rfl, rfl, rfl, rfl, rfl, rfl, rfl⟩
  | cdata ll p k len =>
    have hcount : (0x40 :: ll :: (p ++ [k])).length = 2 + (p.length + 1) := by
      simp only [List.length_cons, List.length_append, List.length_nil]
      omega
    rw [hcount] at hag ⊢
    refine reaches_cdata len hst hlen hwf ?_ (by simpa using hq)
    rw [hag]
    simp [List.replicate_add]
  | sdata d hi lo len =>
    have hcount : (0x42 :: 0x4D :: (d ++ [hi, lo])).length = 2 + (d.length + 2) := by
      simp only [List.length_cons, List.length_append, List.length_nil]
      omega
    rw [hcount] at hag ⊢
    refine reaches_sdata len hst hlen hwf ?_ (by simpa using hq)
    rw [hag]
    simp [List.replicate_add]

/-! ## The statement -/

/-- HOST's DEC on a quiescent block is accepted in one step. -/
theorem step_dec {hq : List HostAct} (hquiet : s.quiescent = true) (hhost : s.hostq = .op [0x03] :: hq)
    (hag : s.agenda = .host :: ag) : step s = .next (State.startDecode { s with agenda := ag, hostq := hq }) :=
  (step_host hag hhost).trans (if_pos hquiet)

/-- Settles O39: the bytes are a whole frame (`frameOutcome_iff`), and from the accepted DEC on the turns of RXU over it
end in its outcome (`reaches_decoded`). -/
theorem decoderIsAFunctionOfTheFrame : Obligations.DecoderIsAFunctionOfTheFrame := by
  intro s bytes q e hq ag htx hrx hwf hqueue hout hhost hag
  have hstart := step_dec (quiescent_of_idle htx hrx) hhost hag
  obtain ⟨t, hrun, htrace, hrxq, hflushes, hst, hlen, htx', htxs, hhostq, hagenda⟩ :=
    reaches_decoded (frameOutcome_iff.1 hout)
      (s := State.startDecode { s with agenda := List.replicate bytes.length .rxu ++ ag, hostq := hq })
      rfl rfl hwf rfl hqueue
  exact ⟨t, Reaches.cons hstart hrun, htrace, hrxq, hflushes, hst, hlen, htx', htxs, hhostq, hagenda⟩

end Sys2Proof.Machine
end
